-- ==== Sys2Proof/Word.lean ====
section
/-! DEFINITION. The word and byte types (00_scope.md R6, R7). -/

namespace Sys2Proof

/-- A command word or a response word: `CMD_WIDTH` = 32 bits (R6, R52). -/
abbrev Word := BitVec 32

/-- A byte of a register group (R7, `u8`). -/
abbrev Byte := BitVec 8

end Sys2Proof
end

