-- ==== Sys2Proof/Syntax.lean ====
section
/-! DEFINITION. The Conversion Mode and the instructions, one constructor per row of
spec/opcode_table.json (30_encoding.md R44, R53 to R55). -/

namespace Sys2Proof

/-- The Conversion Mode, "enumeration {Barometer, Altimeter}" (10_state.md R24). -/
inductive Mode where
  | barometer
  | altimeter
deriving DecidableEq, Repr, Inhabited

/-- A command of the block, its operands taken apart. -/
inductive Instr where
  /-- `DECPA b0, b1, b2`: decode pressure or altitude (40_decode_pa.md R60). -/
  | decpa (b0 b1 b2 : Byte)
  /-- `DECT b0, b1`: decode temperature (41_decode_t.md R70). -/
  | dect (b0 b1 : Byte)
  /-- `SETMODE m`: set the Conversion Mode (44_mode.md R85). -/
  | setmode (m : Mode)
deriving DecidableEq, Repr

/-- The shorthand `DECPA.v v` of R44: the 20-bit field spread over three bytes, the ignored
nibble zero. -/
def Instr.decpaV (v : BitVec 20) : Instr :=
  .decpa (v.extractLsb' 12 8) (v.extractLsb' 4 8) (v.extractLsb' 0 4 ++ 0#4)

/-- The shorthand `DECT.t t` of R44: the 12-bit field spread over two bytes, the ignored
nibble zero. -/
def Instr.dectT (t : BitVec 12) : Instr :=
  .dect (t.extractLsb' 4 8) (t.extractLsb' 0 4 ++ 0#4)

end Sys2Proof
end

