-- ==== Sys2Proof/WellFormed.lean ====
section
/-! DEFINITION. Which command words are legal, said field by field as 30_encoding.md R52 to R55
and the list of reserved words in R57 say it (the decoder uses R57's masks instead).

Of a term of `Instr` there is nothing to check: its operands are bytes and a mode by type, a
wrong operand length cannot be written (60_exceptions.md R103), and every byte pattern decodes
(R51). So the checks are checks of a command word. -/

namespace Sys2Proof

/-- The operation code, `cmd[31:28]` (R52). -/
def opField (cmd : Word) : BitVec 4 := cmd.extractLsb' 28 4

/-- Some operation has this code: 1, 2 or 3 (R53 to R55). -/
def opDefined (cmd : Word) : Bool :=
  opField cmd == 1#4 || opField cmd == 2#4 || opField cmd == 3#4

/-- In a `DECPA` word `cmd[27:24]` is zero (R53). -/
def decpaZeros (cmd : Word) : Bool :=
  opField cmd != 1#4 || cmd.extractLsb' 24 4 == 0#4

/-- In a `DECT` word `cmd[27:16]` is zero (R54). -/
def dectZeros (cmd : Word) : Bool :=
  opField cmd != 2#4 || cmd.extractLsb' 16 12 == 0#12

/-- In a `SETMODE` word `cmd[27:1]` is zero (R55). -/
def setmodeZeros (cmd : Word) : Bool :=
  opField cmd != 3#4 || cmd.extractLsb' 1 27 == 0#27

/-- The word is a legal command: not reserved (R57, R58). -/
def commandWellFormed (cmd : Word) : Bool :=
  opDefined cmd && decpaZeros cmd && dectZeros cmd && setmodeZeros cmd

end Sys2Proof
end

