-- ==== Sys2Proof/Decode.lean ====
section
/-! DEFINITION. The decoder of a command word, total, by the masks of 30_encoding.md R57, and
the encoder, written from the format table of R52. -/

namespace Sys2Proof

/-- Why a word is reserved: the four classes of R57's list. -/
inductive Reserved where
  /-- `op` is 0x0 or 0x4 to 0xF. -/
  | opcode
  /-- A `DECPA` word with `cmd[27:24]` not zero. -/
  | decpaBits
  /-- A `DECT` word with `cmd[27:16]` not zero. -/
  | dectBits
  /-- A `SETMODE` word with `cmd[27:1]` not zero. -/
  | setmodeBits
deriving DecidableEq, Repr

/-- The numeric encoding of the Conversion Mode, `MODE_ENC` (R6, 10_state.md R24). -/
def Mode.toBit : Mode → BitVec 1
  | .barometer => 0#1
  | .altimeter => 1#1

/-- The mode a bit stands for: "Altimeter if m = 1 else Barometer" (44_mode.md R85). -/
def Mode.ofBit (m : BitVec 1) : Mode := if m = 1#1 then .altimeter else .barometer

/-- The class of a word that matches none of the three patterns (R57). -/
def reservedClass (cmd : Word) : Reserved :=
  if cmd.extractLsb' 28 4 = 1#4 then .decpaBits
  else if cmd.extractLsb' 28 4 = 2#4 then .dectBits
  else if cmd.extractLsb' 28 4 = 3#4 then .setmodeBits
  else .opcode

/-- Decoding a command word (R57, with the fields of R53 to R55). -/
def decode (cmd : Word) : Except Reserved Instr :=
  if cmd &&& 0xFF000000#32 = 0x10000000#32 then
    .ok (.decpa (cmd.extractLsb' 16 8) (cmd.extractLsb' 8 8) (cmd.extractLsb' 0 8))
  else if cmd &&& 0xFFFF0000#32 = 0x20000000#32 then
    .ok (.dect (cmd.extractLsb' 8 8) (cmd.extractLsb' 0 8))
  else if cmd &&& 0xFFFFFFFE#32 = 0x30000000#32 then
    .ok (.setmode (Mode.ofBit (cmd.extractLsb' 0 1)))
  else .error (reservedClass cmd)

/-- The instruction a table word stands for. A command is one 32-bit word (R52), so a number
with a bit above bit 31 is no command. -/
def decodeTableWord (nbits w : Nat) : Option Instr :=
  if w % 2 ^ nbits < 2 ^ 32 then
    match decode (BitVec.ofNat 32 (w % 2 ^ nbits)) with
    | .ok i => some i
    | .error _ => none
  else none

/-- The command word of an instruction: formats P, T and M of R52's table, most significant
field first. -/
def encode : Instr → Word
  | .decpa b0 b1 b2 => 0x1#4 ++ 0#4 ++ b0 ++ b1 ++ b2
  | .dect b0 b1 => 0x2#4 ++ 0#4 ++ 0#8 ++ b0 ++ b1
  | .setmode m => 0x3#4 ++ 0#27 ++ m.toBit

end Sys2Proof
end

