-- ==== Sys2Proof/Config.lean ====
section
/-! DEFINITION. What an implementation fixes (00_scope.md R6): the open parameter `MODE_RESET`
as a free value, and `ALT_MOSTNEG` with the spec's default. -/

namespace Sys2Proof

/-- `MODE_RESET` (R6, 10_state.md R27): the value reset number `n` leaves in MODE.
A free value: it has no body, so nothing can be proved of it, and two resets need not agree.
DESIGN CHOICE, log entry 1. -/
opaque Config.modeReset : Nat → Mode

/-- The two values the spec names for `ALT_MOSTNEG` (R6, 40_decode_pa.md R64): what Altimeter
mode makes of the raw value `0x80000`. -/
inductive AltMostNeg where
  /-- `-32768.0`, the two's-complement reading: the spec's default. -/
  | twosComplement
  /-- `+0.0`, the source formula taken literally: the alternative the spec names. -/
  | positiveZero
deriving DecidableEq, Repr

/-- `ALT_MOSTNEG` of this machine: the spec's default (R64). DESIGN CHOICE, log entry 7. -/
def Config.altMostNeg : AltMostNeg := .twosComplement

end Sys2Proof
end

