-- ==== Sys2Proof/Machine/State.lean ====
section
/-! DEFINITION. The state of the block (10_state.md R20) with its host interface as data
(60_exceptions.md R112), the reasons a step can stop, and reset. -/

namespace Sys2Proof.Machine

/-- One thing the host does at the ports (60_exceptions.md R112). -/
inductive HostInput where
  /-- `cmd_valid` with this word on `cmd`. -/
  | command (cmd : Word)
  /-- The port `rst` is driven to this level. -/
  | rst (level : Bool)
deriving DecidableEq, Repr

/-- The block and its host interface. `mode` is the spec's whole state (R20). -/
structure State where
  /-- MODE, the only register (10_state.md R20, R24). -/
  mode : Mode
  /-- The level of the port `rst`; true is asserted (R112, 70_reset_and_hazards.md R120). -/
  rst : Bool
  /-- What the host does next, oldest first (R112, R113). Log entry 2. -/
  inputs : List HostInput
  /-- The responses given, oldest first: the outcome a run shows (R56, R113). Log entry 3. -/
  responses : List Word
  /-- The model's own: how many values of `MODE_RESET` have been drawn. Log entry 1. -/
  resetDraws : Nat
deriving DecidableEq, Repr

/-- Faults: none. "No instruction of the block raises an exception, for any operand value and
any state" (60_exceptions.md R100), and nothing is treated as fault or stuck
(93_implementation_defined.md), so the type has no constructor. -/
inductive Fault where
deriving DecidableEq, Repr

/-- Why the model gives an input no meaning. -/
inductive Refusal where
  /-- An instruction the model does not give a meaning yet, by its mnemonic: raised by an arm of
  `exec` (none is left). Safe: the run stops. -/
  | notModelled (mnemonic : String)
  /-- `refuse(reserved_command)` (60_exceptions.md R104): raised by `step` on a reserved command
  word. Safe: no claim about what follows can be proved. Log entry 9. -/
  | reservedCommand
deriving DecidableEq, Repr

/-- What the host interface hands to the step: an input that is already dealt with, or a command
accepted for execution, each with the state after taking it. -/
inductive Fetched where
  /-- Nothing to execute: the state after taking the input. -/
  | settled (s : State)
  /-- The block accepts this command word in this state. -/
  | command (cmd : Word) (s : State)
deriving DecidableEq, Repr

/-- The state after a reset that left `m` in MODE: reset released, nothing presented, no command
outstanding (R120). -/
def State.resetTo (m : Mode) : State :=
  { mode := m, rst := false, inputs := [], responses := [], resetDraws := 1 }

/-- The state right after reset: MODE holds a value the spec leaves unspecified
(10_state.md R27), here draw number 0 of the free value. Log entries 1 to 4. -/
def State.reset : State := State.resetTo (Config.modeReset 0)

end Sys2Proof.Machine
end

