-- ==== Sys2Proof/Machine/Ops.lean ====
section
/-! DEFINITION. The named operations on the state: reading and writing MODE, responding, and
the host interface (60_exceptions.md R112, 70_reset_and_hazards.md R120 to R122).

There is no memory operation (20_memory.md R30), no exception entry and no return
(60_exceptions.md R100, R107), and no flag (10_state.md R23). -/

namespace Sys2Proof.Machine

/-- `MODE` read (00_scope.md R10). -/
def State.readMode (s : State) : Mode := s.mode

/-- `MODE <- m` (R10, 44_mode.md R85). -/
def State.writeMode (s : State) (m : Mode) : State := { s with mode := m }

/-- One response, after those given before (30_encoding.md R56). -/
def State.respond (s : State) (rsp : Word) : State :=
  { s with responses := s.responses ++ [rsp] }

/-- The host drives `rst`. While it is asserted MODE is a fresh unspecified value, which is what
it holds after release (R120, R27); releasing it changes nothing else. Log entry 4. -/
def State.driveRst (s : State) (level : Bool) : State :=
  if level then
    { s with rst := true, mode := Config.modeReset s.resetDraws, resetDraws := s.resetDraws + 1 }
  else { s with rst := false }

/-- What the host interface has for the next step. With nothing presented the block waits
(R121); a command presented while `rst` is asserted is not accepted and gets no response (R122);
any other command is taken whole (20_memory.md R36). -/
def State.fetch (s : State) : Fetched :=
  match s.inputs with
  | [] => .settled s
  | .rst level :: rest => .settled ({ s with inputs := rest }.driveRst level)
  | .command cmd :: rest =>
    if s.rst then .settled { s with inputs := rest }
    else .command cmd { s with inputs := rest }

end Sys2Proof.Machine
end

