-- ==== Sys2Proof/Machine/ModeControl.lean ====
section
/-! DEFINITION. SETMODE, set the Conversion Mode (44_mode.md). -/

namespace Sys2Proof.Machine

/-- `SETMODE m` (R85): `MODE <- m`, response `0x00000000`. -/
def execSetmode (m : Mode) (s : State) : Host.Outcome State Fault Refusal :=
  .next ((s.writeMode m).respond 0#32)

end Sys2Proof.Machine
end

