-- ==== Sys2Proof/Machine/Converter.lean ====
section
/-! DEFINITION. Stage 2, the converter (42_fix2float.md): sixteenth-unit and quarter-unit
unpacking into a binary32 word, and the number a word denotes. There is no flag computation: the
block has none, not even an inexact flag (10_state.md R23). -/

namespace Sys2Proof.Machine

/-- A binary32 word from sign, biased exponent and fraction: `(s << 31) | (E << 23) | F`
(42_fix2float.md R75, R77). -/
def packF32 (s E F : Nat) : Word := BitVec.ofNat 32 (s <<< 31 ||| E <<< 23 ||| F)

/-- The sign bit, bit 31 (R75). -/
def f32Sign (w : Word) : Nat := (w.extractLsb' 31 1).toNat

/-- The biased exponent, bits 30:23 (R75). -/
def f32Exp (w : Word) : Nat := (w.extractLsb' 23 8).toNat

/-- The fraction, bits 22:0 (R75). -/
def f32Frac (w : Word) : Nat := (w.extractLsb' 0 23).toNat

/-- `val(w)` (R75): for `1 <= E <= 254` the number `(-1)^s * 2^(E-127) * (1 + F / 2^23)`, written
over one denominator as `(-1)^s * (2^23 + F) * 2^E / 2^150`; for the word `0x00000000`, zero. The
spec gives no other word a value ("need no definition here"), so there it is none. -/
def f32Val (w : Word) : Option Rat :=
  if w = 0#32 then some 0
  else if 1 ≤ f32Exp w ∧ f32Exp w ≤ 254 then
    some ((-1 : Rat) ^ f32Sign w * (((2 ^ 23 + f32Frac w) * 2 ^ f32Exp w : Nat) : Rat) / (2 ^ 150 : Nat))
  else none

/-- `f32_sixteenths(n)` for `|n| < 2^24` (R77): the word whose value is exactly `n / 16`.
`k` is the position of the leading one of `|n|`. -/
def f32Sixteenths (n : Int) : Word :=
  if n = 0 then 0#32
  else
    let s := if n < 0 then 1 else 0
    let m := n.natAbs
    let k := m.log2
    packF32 s (127 + k - 4) ((m <<< (23 - k)) &&& 0x7FFFFF)

/-- The exponent of R79 plus 12, so that it is a natural number: the `k` with
`4000 * 2^k <= v * 2^12 < 4000 * 2^(k+1)`, for `v` not 0. -/
def div4000Exp (v : BitVec 20) : Nat := (v.toNat * 2 ^ 12 / 4000).log2

/-- The scaled dividend `v * 2^(23 - e)` of R79; `23 - e` is `35 - div4000Exp v`. -/
def div4000Scaled (v : BitVec 20) : Nat := v.toNat * 2 ^ (35 - div4000Exp v)

/-- The quotient `q` of R79 before rounding. -/
def div4000Quot (v : BitVec 20) : Nat := div4000Scaled v / 4000

/-- The remainder `r` of R79. -/
def div4000Rem (v : BitVec 20) : Nat := div4000Scaled v % 4000

/-- The quotient rounded to nearest: up when `2 * r > 4000` (R79, R80). -/
def div4000Rounded (v : BitVec 20) : Nat :=
  if 2 * div4000Rem v > 4000 then div4000Quot v + 1 else div4000Quot v

/-- `f32_div4000(v)` (R79): the binary32 word nearest to `v / 4000`. The biased exponent
`e + 127` is `div4000Exp v + 115`; the carry-out branch is kept as R79 keeps it. -/
def f32Div4000 (v : BitVec 20) : Word :=
  if v = 0#20 then 0#32
  else if div4000Rounded v = 2 ^ 24 then packF32 0 (div4000Exp v + 1 + 115) 0
  else packF32 0 (div4000Exp v + 115) (div4000Rounded v - 2 ^ 23)

end Sys2Proof.Machine
end

