-- ==== Sys2Proof/Machine/Operands.lean ====
section
/-! DEFINITION. Stage 1, the extractor (00_scope.md R2): assembly of the raw field from the bytes
of a register group, and its integer by the sign rule. -/

namespace Sys2Proof.Machine

/-- `asm20(b0, b1, b2)`, the 20-bit field of the pressure/altitude group (30_encoding.md R47). -/
def asm20 (b0 b1 b2 : Byte) : BitVec 20 :=
  (b0.setWidth 20 <<< 12) ||| (b1.setWidth 20 <<< 4) ||| (b2 >>> 4).setWidth 20

/-- `asm12(b0, b1)`, the 12-bit field of the temperature group (30_encoding.md R50). -/
def asm12 (b0 b1 : Byte) : BitVec 12 :=
  (b0.setWidth 12 <<< 4) ||| (b1 >>> 4).setWidth 12

/-- `sext_N(v)`: `v` when bit N-1 is 0, `v - 2^N` when it is 1 (00_scope.md R9). -/
def sext {n : Nat} (v : BitVec n) : Int :=
  if v.msb then (v.toNat : Int) - (2 ^ n : Nat) else v.toNat

/-- The integer Altimeter mode makes of the field (40_decode_pa.md R63), with `ALT_MOSTNEG` as
an argument for the one pattern `0x80000` (R64). -/
def altimeterInt (c : AltMostNeg) (v : BitVec 20) : Int :=
  match c with
  | .twosComplement => sext v
  | .positiveZero => if v = 0x80000#20 then 0 else sext v

/-- The source's sign formula for altitude as printed (40_decode_pa.md R69). The block does not
use it: R69 and 90_conflicts.md C6 give sign extension. -/
def sourceFormula20 (v : BitVec 20) : Int :=
  if v.toNat > 0x7FFFF then -(((~~~v + 1#20) &&& 0x7FFFF#20).toNat : Int) else v.toNat

/-- The source's sign formula for temperature as printed (41_decode_t.md R72). The block does not
use it: 90_conflicts.md C5. -/
def sourceFormula12 (t : BitVec 12) : Int :=
  if t.toNat > 0x7FF then -(((~~~t + 1#12) &&& 0x7FF#12).toNat : Int) else t.toNat

/-- The exact Barometer value `v / 4000`, in kPa (40_decode_pa.md R62). -/
def barometerValue (v : BitVec 20) : Rat := (v.toNat : Rat) / 4000

/-- The exact Altimeter value `sext_20(v) / 16`, in metres (40_decode_pa.md R63). -/
def altimeterValue (v : BitVec 20) : Rat := (sext v : Rat) / 16

/-- The exact temperature `sext_12(t) / 16`, in degrees Celsius (41_decode_t.md R70). -/
def temperatureValue (t : BitVec 12) : Rat := (sext t : Rat) / 16

end Sys2Proof.Machine
end

