-- ==== Sys2Proof/Machine/PressureAltitude.lean ====
section
/-! DEFINITION. DECPA, decode pressure or altitude (40_decode_pa.md). -/

namespace Sys2Proof.Machine

/-- `decpa(mode, b0, b1, b2)`, the source's pure function (60_exceptions.md R113,
40_decode_pa.md R60), with `ALT_MOSTNEG` as its first argument. -/
def decpa (c : AltMostNeg) (mode : Mode) (b0 b1 b2 : Byte) : Word :=
  match mode with
  | .barometer => f32Div4000 (asm20 b0 b1 b2)
  | .altimeter => f32Sixteenths (altimeterInt c (asm20 b0 b1 b2))

/-- `DECPA b0, b1, b2` (R60): the response under the mode held; MODE is kept. -/
def execDecpa (b0 b1 b2 : Byte) (s : State) : Host.Outcome State Fault Refusal :=
  .next (s.respond (decpa Config.altMostNeg s.readMode b0 b1 b2))

end Sys2Proof.Machine
end

