-- ==== Sys2Proof/Machine/Temperature.lean ====
section
/-! DEFINITION. DECT, decode temperature (41_decode_t.md). -/

namespace Sys2Proof.Machine

/-- `dect(b0, b1)`, the source's pure function (60_exceptions.md R113, 41_decode_t.md R70). -/
def dect (b0 b1 : Byte) : Word := f32Sixteenths (sext (asm12 b0 b1))

/-- `DECT b0, b1` (R70): the response does not depend on MODE, and MODE is kept (R71). -/
def execDect (b0 b1 : Byte) (s : State) : Host.Outcome State Fault Refusal :=
  .next (s.respond (dect b0 b1))

end Sys2Proof.Machine
end

