-- ==== Sys2Proof/Machine/Dispatch.lean ====
section
/-! DEFINITION. Dispatch: one arm per instruction. -/

namespace Sys2Proof.Machine

def exec (i : Instr) (s : State) : Host.Outcome State Fault Refusal :=
  match i with
  | .decpa b0 b1 b2 => Sys2Proof.Machine.execDecpa b0 b1 b2 s
  | .dect b0 b1 => Sys2Proof.Machine.execDect b0 b1 s
  | .setmode m => Sys2Proof.Machine.execSetmode m s

end Sys2Proof.Machine
end

