-- ==== Sys2Proof/Machine/Step.lean ====
section
/-! DEFINITION. One step of the block: take what the host interface has; an accepted command is
decoded and executed, a reserved word refused (60_exceptions.md R104, R113). -/

namespace Sys2Proof.Machine

/-- The step function of 60_exceptions.md R113, behind the ports of R112. -/
def step (s : State) : Host.Outcome State Fault Refusal :=
  match s.fetch with
  | .settled s' => .next s'
  | .command cmd s' =>
    match decode cmd with
    | .ok i => exec i s'
    | .error _ => .refused .reservedCommand

/-- `s` with the host presenting this word next, `rst` released. The block fetches nothing
(10_state.md R22): the command the host presents is where an instruction comes from. -/
def State.withFetchWord (s : State) (nbits w : Nat) : State :=
  { s with rst := false, inputs := .command (BitVec.ofNat 32 (w % 2 ^ nbits)) :: s.inputs }

end Sys2Proof.Machine
end

