-- ==== Sys2Proof/Machine/Annex.lean ====
section
/-! DEFINITION. The annex encoders (49_annex_encoders.md R90 to R98): pure functions outside the
block. They are no instructions, and no step calls them. Their three open parameters are
arguments (R90):

- `encRound` (`ENC_ROUND`, R92) takes the exact product by 500 to the raw integer; the precision
  the product is formed in is part of it. The factor 500 itself is fixed (R91, R93).
- `encIntConv` (`ENC_INT_CONV`, R95) takes an altitude to its 16-bit pattern, none where it has
  none.
- `encRange` (`ENC_RANGE_POLICY`, R96) takes the inputs outside the precondition to what is
  returned for them. It is a function of all the inputs, because the spec leaves open whether the
  result depends on them; the answer none is the refusal R96 asks of a model. Log entry 10. -/

namespace Sys2Proof.Machine

/-- A floating-point argument of an encoder: a number, or a NaN or infinity, which R96 puts
outside the precondition. DESIGN CHOICE, log entry 10. -/
inductive EncFloat where
  | finite (x : Rat)
  | notFinite
deriving DecidableEq, Repr

/-- A 16-bit field, "big-endian (high byte, low byte)" (R91). -/
def bigEndian16 (raw : BitVec 16) : List Byte := [raw.extractLsb' 8 8, raw.extractLsb' 0 8]

/-- `raw = round(pressure_kPa * 500)` before it is cut to 16 bits (R91, R93). -/
def pressureRaw (encRound : Rat → Int) (x : Rat) : Int := encRound (x * 500)

/-- A pressure as an unsigned 16-bit field, none where it does not fit: the precondition of R96,
`0 <= round(p * 500) <= 65535`. -/
def pressureField (encRound : Rat → Int) : EncFloat → Option (BitVec 16)
  | .finite x =>
    if 0 ≤ pressureRaw encRound x ∧ pressureRaw encRound x ≤ 65535 then
      some (BitVec.ofInt 16 (pressureRaw encRound x))
    else none
  | .notFinite => none

/-- An altitude in whole metres as a 16-bit field (R94, R95): not scaled. -/
def altitudeField (encIntConv : Rat → Option (BitVec 16)) : EncFloat → Option (BitVec 16)
  | .finite a => encIntConv a
  | .notFinite => none

/-- `encode_sealevel(pressure_kPa)` (R91). Outside the precondition of R96 the result is what
`encRange` gives for this pressure (log entry 10). -/
def encodeSealevel (encRound : Rat → Int) (encRange : EncFloat → Option (List Byte))
    (pressure : EncFloat) : Option (List Byte) :=
  match pressureField encRound pressure with
  | some raw => some (bigEndian16 raw)
  | none => encRange pressure

/-- The field of a target or a window in the given mode (R93, R94). -/
def thresholdField (encRound : Rat → Int) (encIntConv : Rat → Option (BitVec 16)) (mode : Mode)
    (x : EncFloat) : Option (BitVec 16) :=
  match mode with
  | .barometer => pressureField encRound x
  | .altimeter => altitudeField encIntConv x

/-- `encode_threshold(target, temperature_target, window, temperature_window, mode)`: the six
bytes of R97; temperatures are copied. If either field is outside the precondition of R96, the
result is what `encRange` gives for these five inputs (log entry 10). -/
def encodeThreshold (encRound : Rat → Int) (encIntConv : Rat → Option (BitVec 16))
    (encRange : EncFloat → Byte → EncFloat → Byte → Mode → Option (List Byte))
    (target : EncFloat) (temperatureTarget : Byte)
    (window : EncFloat) (temperatureWindow : Byte) (mode : Mode) : Option (List Byte) :=
  match thresholdField encRound encIntConv mode target,
      thresholdField encRound encIntConv mode window with
  | some t, some w =>
    some (bigEndian16 t ++ [temperatureTarget] ++ bigEndian16 w ++ [temperatureWindow])
  | _, _ => encRange target temperatureTarget window temperatureWindow mode

end Sys2Proof.Machine
end

