-- ==== Sys2Proof/Safety.lean ====
section
/-! DEFINITION. The terms claims are written in: the spec's step function read straight from the
command word, runs of it, the host's duties (60_exceptions.md R114), and what it is for a word to
be the nearest binary32. No definition of the machine uses these. -/

namespace Sys2Proof.Safety

open Sys2Proof.Machine

/-- The step function of 60_exceptions.md R113 on the mode and the command word, with `v` and `t`
taken as the slices `cmd[23:4]` and `cmd[15:4]` of 30_encoding.md R53 and R54; none is
`refuse(reserved_command)`. -/
def specStep (mode : Mode) (cmd : Word) : Option (Mode × Word) :=
  if cmd &&& 0xFF000000#32 = 0x10000000#32 then
    let v := cmd.extractLsb' 4 20
    some (mode, if mode = .barometer then f32Div4000 v else f32Sixteenths v.toInt)
  else if cmd &&& 0xFFFF0000#32 = 0x20000000#32 then
    some (mode, f32Sixteenths (cmd.extractLsb' 4 12).toInt)
  else if cmd &&& 0xFFFFFFFE#32 = 0x30000000#32 then
    some (if cmd.getLsbD 0 then .altimeter else .barometer, 0#32)
  else none

/-- The mode and the responses after a sequence of command words, none if one is refused
(R113: "its observable outcome is the sequence of responses"; R104: the refusal is kept). -/
def specRun (mode : Mode) : List Word → Option (Mode × List Word)
  | [] => some (mode, [])
  | cmd :: cmds =>
    match specStep mode cmd with
    | none => none
    | some (mode', rsp) =>
      match specRun mode' cmds with
      | none => none
      | some (mode'', rsps) => some (mode'', rsp :: rsps)

/-- The host never issues a reserved word (R114, R104). -/
def legalInputs : List HostInput → Bool
  | [] => true
  | .command cmd :: rest => commandWellFormed cmd && legalInputs rest
  | .rst _ :: rest => legalInputs rest

/-- The boot rule (70_reset_and_hazards.md R123): every DECPA the block accepts comes after a
SETMODE accepted since the last reset. `known` says that MODE has been set since then, `rst` is
the level of the port. -/
def bootRule (known rst : Bool) : List HostInput → Bool
  | [] => true
  | .rst level :: rest => bootRule (known && !level) level rest
  | .command cmd :: rest =>
    if rst then bootRule known rst rest
    else
      match decode cmd with
      | .ok (.decpa _ _ _) => known && bootRule known rst rest
      | .ok (.dect _ _) => bootRule known rst rest
      | .ok (.setmode _) => bootRule true rst rest
      | .error _ => true

/-- `k` steps of the machine, stopping at the first refusal (R104: it is kept). -/
def run (k : Nat) (s : State) : Host.Outcome State Fault Refusal := Sys2Proof.core.run k s

/-- What an outcome shows the host: the responses of a next state; none after a refusal. -/
def shown : Host.Outcome State Fault Refusal → Option (List Word)
  | .next s => some s.responses
  | .fault _ => none
  | .refused _ => none

/-- The word `w` is the binary32 nearest to `x`, and every other word with a value is strictly
farther (42_fix2float.md R79, R80). -/
def IsNearestF32 (w : Word) (x : Rat) : Prop :=
  ∃ y, f32Val w = some y ∧ ∀ w' y', f32Val w' = some y' → w' ≠ w → |y - x| < |y' - x|

/-- `d` is a number of at most `p` significant bits (any exponent). -/
def Significant (p : Nat) (d : Rat) : Prop := ∃ m e : Int, m.natAbs < 2 ^ p ∧ d = m * (2 : Rat) ^ e

/-- `d` is a nearest number of at most `p` significant bits to `x`. -/
def IsNearestSignificant (p : Nat) (d x : Rat) : Prop :=
  Significant p d ∧ ∀ d', Significant p d' → |d - x| ≤ |d' - x|

/-- A response word the block may give (42_fix2float.md R82): `+0`, or a normal number with
biased exponent 115 to 142. -/
def plainResponse (w : Word) : Bool := w == 0#32 || (115 ≤ f32Exp w && f32Exp w ≤ 142)

/-- Every response given so far is `+0` or a normal number in range (R82). -/
def ResponsesPlain (s : State) : Prop := ∀ w ∈ s.responses, plainResponse w = true

end Sys2Proof.Safety
end

