-- ==== Sys2Proof/Certificates/Slice0/Obligations.lean ====
section
/-! DEFINITION. The statements about the Unit Decoder, from the numbered rules of spec/. -/

open Sys2Proof Sys2Proof.Machine Sys2Proof.Safety

/-! ### Encoding -/

/-- The words the formats of 30_encoding.md R52 to R55 give an instruction decode to it, with every
operand at every value. -/
def Obligations.DecodeOfEncode : Prop := ∀ i : Instr, decode (encode i) = .ok i

/-- A legal word has one meaning: it is the word of the instruction it decodes to. -/
def Obligations.EncodeOfDecode : Prop := ∀ (cmd : Word) (i : Instr), decode cmd = .ok i → encode i = cmd

/-- 30_encoding.md R57: the three patterns and their operands, their disjointness, the list of
reserved words, and the counts of legal words. -/
def Obligations.DecodingFollowsTheOpcodeMap : Prop :=
  (∀ cmd : Word,
    (cmd &&& 0xFF000000#32 = 0x10000000#32 →
      decode cmd = .ok (.decpa (cmd.extractLsb' 16 8) (cmd.extractLsb' 8 8) (cmd.extractLsb' 0 8))) ∧
    (cmd &&& 0xFFFF0000#32 = 0x20000000#32 →
      decode cmd = .ok (.dect (cmd.extractLsb' 8 8) (cmd.extractLsb' 0 8))) ∧
    (cmd &&& 0xFFFFFFFE#32 = 0x30000000#32 →
      decode cmd = .ok (.setmode (if cmd.getLsbD 0 then .altimeter else .barometer))) ∧
    ((∃ e, decode cmd = .error e) ↔
      ¬ cmd &&& 0xFF000000#32 = 0x10000000#32 ∧ ¬ cmd &&& 0xFFFF0000#32 = 0x20000000#32 ∧
        ¬ cmd &&& 0xFFFFFFFE#32 = 0x30000000#32) ∧
    ((∃ e, decode cmd = .error e) ↔
      (cmd.extractLsb' 28 4 = 0#4 ∨ 4 ≤ (cmd.extractLsb' 28 4).toNat) ∨
      (cmd.extractLsb' 28 4 = 1#4 ∧ cmd.extractLsb' 24 4 ≠ 0#4) ∨
      (cmd.extractLsb' 28 4 = 2#4 ∧ cmd.extractLsb' 16 12 ≠ 0#12) ∨
      (cmd.extractLsb' 28 4 = 3#4 ∧ cmd.extractLsb' 1 27 ≠ 0#27))) ∧
  Set.ncard {cmd : Word | ∃ b0 b1 b2, decode cmd = .ok (.decpa b0 b1 b2)} = 2 ^ 24 ∧
  Set.ncard {cmd : Word | ∃ b0 b1, decode cmd = .ok (.dect b0 b1)} = 2 ^ 16 ∧
  Set.ncard {cmd : Word | ∃ m, decode cmd = .ok (.setmode m)} = 2

/-- Words written out from R44 and R52 to R55, one or more of each row of the opcode table, and
reserved words of each class (95_test_vectors.md section 4). -/
def Obligations.OpcodeTableWordsDecode : Prop :=
  decode 0x1062F5C0#32 = .ok (.decpa 0x62#8 0xF5#8 0xC0#8) ∧
  decode 0x10FFFFFF#32 = .ok (.decpa 0xFF#8 0xFF#8 0xFF#8) ∧
  decode 0x20001980#32 = .ok (.dect 0x19#8 0x80#8) ∧
  decode 0x30000000#32 = .ok (.setmode .barometer) ∧
  decode 0x30000001#32 = .ok (.setmode .altimeter) ∧
  decode 0x00000000#32 = .error .opcode ∧
  decode 0x40000000#32 = .error .opcode ∧
  decode 0x1162F5C0#32 = .error .decpaBits ∧
  decode 0x20011980#32 = .error .dectBits ∧
  decode 0x30000002#32 = .error .setmodeBits

/-! ### The step -/

/-- When the host presents a word that decodes to `i` and reset is released, the step is `exec i`
after the word is taken; and the word placed by `withFetchWord` is the one the next step runs. -/
def Obligations.StepRunsTheDecodedCommand : Prop :=
  (∀ (s : State) (cmd : Word) (rest : List HostInput) (i : Instr),
    s.rst = false → s.inputs = .command cmd :: rest → decode cmd = .ok i →
      step s = exec i { s with inputs := rest }) ∧
  (∀ (s : State) (i : Instr),
    step (s.withFetchWord 32 (encode i).toNat) = exec i { s with rst := false })

/-- 60_exceptions.md R113: a step on a presented word is the spec's step function, read straight
from the slices of the word. That a step takes the command from a list in State and adds its
response to another is the model's choice (log entries 2 and 3). -/
def Obligations.StepIsTheSpecStepFunction : Prop :=
  ∀ (s : State) (cmd : Word) (rest : List HostInput),
    s.rst = false → s.inputs = .command cmd :: rest →
    step s =
      match specStep s.mode cmd with
      | some (mode', rsp) =>
        .next { s with mode := mode', inputs := rest, responses := s.responses ++ [rsp] }
      | none => .refused .reservedCommand

/-- 20_memory.md R39, 30_encoding.md R56, 60_exceptions.md R113: a run over any sequence of command
words gives one response per command in command order, each from the mode all earlier commands
left, and is refused if a word is reserved. The lists of commands and responses are the model's
choice (log entries 2 and 3). -/
def Obligations.RunAnswersEveryCommandInOrder : Prop :=
  ∀ (cmds : List Word) (s : State), s.rst = false → s.inputs = cmds.map .command →
    run cmds.length s =
      match specRun s.mode cmds with
      | some (mode', rsps) =>
        .next { s with mode := mode', inputs := [], responses := s.responses ++ rsps }
      | none => .refused .reservedCommand

/-- 60_exceptions.md R104: only a reserved command is refused, and the refusal is kept. That a
reserved word presented while `rst` is asserted is not refused rests on 70_reset_and_hazards.md
R122 (it is not accepted) and on the model's choice to drop it (log entry 4). -/
def Obligations.OnlyReservedCommandsAreRefusedForGood : Prop :=
  (∀ (s : State) (r : Refusal),
    step s = .refused r ↔
      s.rst = false ∧ r = .reservedCommand ∧
        ∃ cmd rest, s.inputs = .command cmd :: rest ∧ commandWellFormed cmd = false) ∧
  (∀ (s : State) (r : Refusal) (k j : Nat), run k s = .refused r → run (k + j) s = .refused r)

/-- 60_exceptions.md R114, R100: a host that issues no reserved word is never refused. -/
def Obligations.LegalHostIsNeverRefused : Prop :=
  ∀ (k : Nat) (s : State), legalInputs s.inputs = true →
    ∃ t, run k s = .next t ∧ legalInputs t.inputs = true

/-- 60_exceptions.md R100, 30_encoding.md R56: every instruction, on every operand and in every
state, answers with one response, and changes nothing but the responses and, for SETMODE, the
mode. -/
def Obligations.EveryInstructionAnswersOnce : Prop :=
  ∀ (i : Instr) (s : State), ∃ rsp,
    exec i s =
      .next { s with
        mode := match i with
          | .setmode m => m
          | .decpa _ _ _ => s.mode
          | .dect _ _ => s.mode
        responses := s.responses ++ [rsp] }

/-! ### DECPA -/

/-- 40_decode_pa.md R62: in Barometer mode DECPA completes, its response is the binary32 nearest to
`v / 4000` with `v` unsigned over all 20 bits, and nothing else changes. -/
def Obligations.DecpaBarometerAnswersTheNearestQuotient : Prop :=
  (∀ (b0 b1 b2 : Byte) (s : State), s.mode = .barometer →
    ∃ rsp, exec (.decpa b0 b1 b2) s = .next { s with responses := s.responses ++ [rsp] } ∧
      IsNearestF32 rsp (((b0.toNat * 4096 + b1.toNat * 16 + b2.toNat / 16 : Nat) : Rat) / 4000)) ∧
  barometerValue 0x80000#20 = 131072 / 1000 ∧ barometerValue 0xFFFFF#20 = 26214375 / 100000

/-- 40_decode_pa.md R63 (with R64's default): in Altimeter mode DECPA completes, its response has
exactly the value `sext_20(v) / 16`, and nothing else changes. -/
def Obligations.DecpaAltimeterAnswersTheExactAltitude : Prop :=
  ∀ (b0 b1 b2 : Byte) (s : State), s.mode = .altimeter →
    ∃ rsp, exec (.decpa b0 b1 b2) s = .next { s with responses := s.responses ++ [rsp] } ∧
      f32Val rsp =
        some (((if b0.toNat * 4096 + b1.toNat * 16 + b2.toNat / 16 ≤ 0x7FFFF
          then ((b0.toNat * 4096 + b1.toNat * 16 + b2.toNat / 16 : Nat) : Int)
          else ((b0.toNat * 4096 + b1.toNat * 16 + b2.toNat / 16 : Nat) : Int) - 0x100000 : Int) : Rat) / 16)

/-- 40_decode_pa.md R64: the one pattern `0x80000`. The machine answers the spec's default; the
alternative value of `ALT_MOSTNEG` answers `+0` there and the same word everywhere else. -/
def Obligations.AltMostNegConcernsOneResponse : Prop :=
  (∀ (b2 : Byte) (s : State), s.mode = .altimeter → b2.toNat < 16 →
    exec (.decpa 0x80#8 0x00#8 b2) s = .next { s with responses := s.responses ++ [0xC7000000#32] } ∧
    decpa .positiveZero .altimeter 0x80#8 0x00#8 b2 = 0x00000000#32) ∧
  f32Val 0xC7000000#32 = some (-32768) ∧
  (∀ (mode : Mode) (b0 b1 b2 : Byte),
    ¬ (mode = .altimeter ∧ b0 = 0x80#8 ∧ b1 = 0x00#8 ∧ b2.toNat < 16) →
    decpa .positiveZero mode b0 b1 b2 = decpa .twosComplement mode b0 b1 b2)

/-- 40_decode_pa.md R65, R66: corner words of DECPA in each mode, in every state. -/
def Obligations.DecpaCornerWords : Prop :=
  (∀ s : State, s.mode = .altimeter →
    exec (.decpaV 0x7FFFF#20) s = .next { s with responses := s.responses ++ [0x46FFFFE0#32] } ∧
    exec (.decpaV 0x00000#20) s = .next { s with responses := s.responses ++ [0x00000000#32] } ∧
    exec (.decpaV 0x00001#20) s = .next { s with responses := s.responses ++ [0x3D800000#32] } ∧
    exec (.decpaV 0xFFFFF#20) s = .next { s with responses := s.responses ++ [0xBD800000#32] } ∧
    exec (.decpaV 0xFFFEF#20) s = .next { s with responses := s.responses ++ [0xBF880000#32] }) ∧
  (∀ s : State, s.mode = .barometer →
    exec (.decpaV 0x00000#20) s = .next { s with responses := s.responses ++ [0x00000000#32] } ∧
    exec (.decpaV 0x00001#20) s = .next { s with responses := s.responses ++ [0x3983126F#32] } ∧
    exec (.decpaV 0xFFFFF#20) s = .next { s with responses := s.responses ++ [0x43831266#32] }) ∧
  altimeterValue 0x7FFFF#20 = 327679375 / 10000

/-- 40_decode_pa.md R66 (d), 41_decode_t.md R73 and 95_test_vectors.md section 5.2: the response
tells the raw values apart and keeps their order, DECPA's in each mode and DECT's. -/
def Obligations.ResponsesKeepTheOrderOfRawValues : Prop :=
  (∀ v v' : BitVec 20, v.toNat < v'.toNat → (f32Div4000 v).toNat < (f32Div4000 v').toNat) ∧
  (∀ v v' : BitVec 20, sext v < sext v' →
    ∃ y y', f32Val (f32Sixteenths (sext v)) = some y ∧ f32Val (f32Sixteenths (sext v')) = some y' ∧ y < y') ∧
  (∀ t t' : BitVec 12, sext t < sext t' →
    ∃ y y', f32Val (f32Sixteenths (sext t)) = some y ∧ f32Val (f32Sixteenths (sext t')) = some y' ∧ y < y') ∧
  (∀ a0 a1 b0 b1 : Byte, sext (asm12 a0 a1) < sext (asm12 b0 b1) →
    ∃ y y', f32Val (dect a0 a1) = some y ∧ f32Val (dect b0 b1) = some y' ∧ y < y') ∧
  (∀ (mode : Mode) (a0 a1 a2 b0 b1 b2 : Byte),
    decpa .twosComplement mode a0 a1 a2 = decpa .twosComplement mode b0 b1 b2 →
      asm20 a0 a1 a2 = asm20 b0 b1 b2) ∧
  (∀ a0 a1 b0 b1 : Byte, dect a0 a1 = dect b0 b1 → asm12 a0 a1 = asm12 b0 b1)

/-- 40_decode_pa.md R67: the same bytes under the two modes. Up to `0x7FFFF` the Altimeter response
has exactly 250 times the exact Barometer value; above, the two differ in sign. -/
def Obligations.OnePatternTwoMeanings : Prop :=
  ∀ b0 b1 b2 : Byte,
    ((asm20 b0 b1 b2).toNat ≤ 0x7FFFF →
      f32Val (decpa .twosComplement .altimeter b0 b1 b2) = some (250 * barometerValue (asm20 b0 b1 b2))) ∧
    (0x80000 ≤ (asm20 b0 b1 b2).toNat →
      f32Sign (decpa .twosComplement .altimeter b0 b1 b2) = 1 ∧
      f32Sign (decpa .twosComplement .barometer b0 b1 b2) = 0)

/-! ### DECT and SETMODE -/

/-- 30_encoding.md R50: the temperature field and its exact value in every mode; DECT completes and
nothing but the responses changes. -/
def Obligations.DectAnswersTheExactTemperature : Prop :=
  ∀ (b0 b1 : Byte) (s : State),
    (asm12 b0 b1).toNat = b0.toNat * 16 + b1.toNat / 16 ∧
    ∃ rsp y, exec (.dect b0 b1) s = .next { s with responses := s.responses ++ [rsp] } ∧
      f32Val rsp = some y ∧ -128 ≤ y ∧ y ≤ 1279375 / 10000 ∧
      y = ((if b0.toNat * 16 + b1.toNat / 16 ≤ 0x7FF
        then ((b0.toNat * 16 + b1.toNat / 16 : Nat) : Int)
        else ((b0.toNat * 16 + b1.toNat / 16 : Nat) : Int) - 0x1000 : Int) : Rat) / 16

/-- 41_decode_t.md R71: one response serves every state, and so both values reset may leave. -/
def Obligations.DectIgnoresTheMode : Prop :=
  ∀ b0 b1 : Byte, ∃ rsp,
    (∀ s : State, exec (.dect b0 b1) s = .next { s with responses := s.responses ++ [rsp] }) ∧
    (∀ m : Mode, step ((State.resetTo m).withFetchWord 32 (encode (.dect b0 b1)).toNat) =
      .next { State.resetTo m with responses := [rsp] })

/-- 41_decode_t.md R73: corner words of DECT, in every state. -/
def Obligations.DectCornerWords : Prop :=
  ∀ s : State,
    exec (.dectT 0x000#12) s = .next { s with responses := s.responses ++ [0x00000000#32] } ∧
    exec (.dectT 0x7FF#12) s = .next { s with responses := s.responses ++ [0x42FFE000#32] } ∧
    exec (.dectT 0xFFF#12) s = .next { s with responses := s.responses ++ [0xBD800000#32] } ∧
    exec (.dectT 0x800#12) s = .next { s with responses := s.responses ++ [0xC3000000#32] } ∧
    exec (.dect 0x19#8 0x80#8) s = .next { s with responses := s.responses ++ [0x41CC0000#32] } ∧
    exec (.dect 0x19#8 0x8F#8) s = .next { s with responses := s.responses ++ [0x41CC0000#32] }

/-- 44_mode.md R85: SETMODE writes MODE, answers zero and changes nothing else; writing the held
value changes nothing of MODE; `SETMODE ALT` is `0x30000001`, after which `DECPA FF, FF, F0`
answers `0xBD800000`. -/
def Obligations.SetmodeWritesTheModeAndAnswersZero : Prop :=
  (∀ (m : Mode) (s : State),
    exec (.setmode m) s = .next { s with mode := m, responses := s.responses ++ [0x00000000#32] }) ∧
  (∀ s : State, exec (.setmode s.mode) s = .next { s with responses := s.responses ++ [0x00000000#32] }) ∧
  encode (.setmode .barometer) = 0x30000000#32 ∧ encode (.setmode .altimeter) = 0x30000001#32 ∧
  (∀ (s t : State), exec (.setmode .altimeter) s = .next t →
    exec (.decpa 0xFF#8 0xFF#8 0xF0#8) t = .next { t with responses := t.responses ++ [0xBD800000#32] })

/-- 20_memory.md R39 (a), 44_mode.md R86: whatever MODE was, a SETMODE is in force for the very
next command. -/
def Obligations.SetmodeGovernsTheNextDecode : Prop :=
  ∀ (m : Mode) (b0 b1 b2 : Byte) (s : State) (rest : List HostInput), s.rst = false →
    s.inputs = .command (encode (.setmode m)) :: .command (encode (.decpa b0 b1 b2)) :: rest →
    run 2 s =
      .next { s with
        mode := m, inputs := rest
        responses := s.responses ++ [0#32, decpa .twosComplement m b0 b1 b2] }

/-- 10_state.md R25: MODE holds its value until a SETMODE or a reset; no decode changes it; DECT
neither reads nor writes it. -/
def Obligations.ModePersistsUntilSetmodeOrReset : Prop :=
  (∀ s t : State, step s = .next t → t.mode ≠ s.mode →
    (∃ rest, s.rst = false ∧ s.inputs = .command (encode (.setmode t.mode)) :: rest) ∨
    (∃ rest, s.inputs = .rst true :: rest)) ∧
  (∀ (b0 b1 b2 : Byte) (s : State), ∃ t, exec (.decpa b0 b1 b2) s = .next t ∧ t.mode = s.mode) ∧
  (∀ (b0 b1 : Byte) (s : State) (m : Mode), ∃ t, exec (.dect b0 b1) s = .next t ∧ t.mode = s.mode ∧
    exec (.dect b0 b1) { s with mode := m } = .next { t with mode := m })

/-- 10_state.md R29: the same command under the same MODE gives the same response and the same next
MODE, whatever was answered before and whatever follows. -/
def Obligations.OnlyModeAndCommandMatter : Prop :=
  ∀ (s s' t : State) (cmd : Word) (rest rest' : List HostInput),
    s.rst = false → s'.rst = false → s.mode = s'.mode →
    s.inputs = .command cmd :: rest → s'.inputs = .command cmd :: rest' → step s = .next t →
    ∃ rsp t', step s' = .next t' ∧ t.responses = s.responses ++ [rsp] ∧
      t'.responses = s'.responses ++ [rsp] ∧ t'.mode = t.mode ∧ t.inputs = rest ∧ t'.inputs = rest'

/-- The frame of the decoders (20_memory.md R36) and of SETMODE: what a next state keeps. -/
def Obligations.InstructionFrames : Prop :=
  ∀ (i : Instr) (s t : State), exec i s = .next t →
    t.rst = s.rst ∧ t.inputs = s.inputs ∧ t.resetDraws = s.resetDraws ∧
    s.responses <+: t.responses ∧ t.responses.length = s.responses.length + 1 ∧
    ((∀ m, i ≠ .setmode m) → t.mode = s.mode)

/-! ### Extractor -/

/-- 30_encoding.md R47: the raw value as an unsigned 20-bit number, its three terms disjoint. -/
def Obligations.RawValueIsTheSumOfItsBytes : Prop :=
  ∀ b0 b1 b2 : Byte,
    (asm20 b0 b1 b2).toNat = b0.toNat * 4096 + b1.toNat * 16 + b2.toNat / 16 ∧
    (asm20 b0 b1 b2).toNat ≤ 0xFFFFF ∧
    asm20 b0 b1 b2 = b0.setWidth 20 <<< 12 + b1.setWidth 20 <<< 4 + (b2 >>> 4).setWidth 20 ∧
    (b0.setWidth 20 <<< 12) &&& (b1.setWidth 20 <<< 4) = 0#20 ∧
    (b0.setWidth 20 <<< 12) &&& (b2 >>> 4).setWidth 20 = 0#20 ∧
    (b1.setWidth 20 <<< 4) &&& (b2 >>> 4).setWidth 20 = 0#20

/-- 20_memory.md R34, 30_encoding.md R46: the fields are left-justified in their groups, and the
low nibble of the last byte reaches no response. -/
def Obligations.IgnoredNibbleReachesNoResponse : Prop :=
  (∀ b0 b1 b2 : Byte, asm20 b0 b1 b2 = (b0 ++ b1 ++ b2 : BitVec 24).extractLsb' 4 20) ∧
  (∀ b0 b1 : Byte, asm12 b0 b1 = (b0 ++ b1 : BitVec 16).extractLsb' 4 12) ∧
  (∀ (b0 b1 : Byte) (h n n' : BitVec 4) (s : State),
    exec (.decpa b0 b1 (h ++ n)) s = exec (.decpa b0 b1 (h ++ n')) s) ∧
  (∀ (b0 : Byte) (h n n' : BitVec 4) (s : State),
    exec (.dect b0 (h ++ n)) s = exec (.dect b0 (h ++ n')) s)

/-- 95_test_vectors.md section 5.1: packing a field into bytes and assembling it again, for every
ignored nibble, and the converse. -/
def Obligations.LayoutRoundTrip : Prop :=
  (∀ (v : BitVec 20) (n : BitVec 4),
    asm20 (v.extractLsb' 12 8) (v.extractLsb' 4 8) (v.extractLsb' 0 4 ++ n) = v) ∧
  (∀ (t : BitVec 12) (n : BitVec 4), asm12 (t.extractLsb' 4 8) (t.extractLsb' 0 4 ++ n) = t) ∧
  (∀ b0 b1 b2 : Byte, b0 ++ b1 ++ b2.extractLsb' 4 4 = asm20 b0 b1 b2) ∧
  (∀ b0 b1 : Byte, b0 ++ b1.extractLsb' 4 4 = asm12 b0 b1)

/-- 40_decode_pa.md R69 (and, for temperature, 41_decode_t.md R72): sign extension against the
formula as the source prints it. They agree except at the most negative pattern, where the formula
gives 0. The machine uses sign extension. -/
def Obligations.PrintedFormulaFailsAtOnePattern : Prop :=
  (∀ v : BitVec 20, (v.toNat > 0x7FFFF ↔ v.getLsbD 19 = true) ∧
    (v ≠ 0x80000#20 → sourceFormula20 v = sext v) ∧
    (v.toNat > 0x7FFFF → sext v = (v.toNat : Int) - 0x100000) ∧
    altimeterInt Config.altMostNeg v = sext v) ∧
  sourceFormula20 0x80000#20 = 0 ∧ sext 0x80000#20 = -524288 ∧
  (∀ t : BitVec 12, t ≠ 0x800#12 → sourceFormula12 t = sext t) ∧
  sourceFormula12 0x800#12 = 0 ∧ sext 0x800#12 = -2048

/-! ### Converter -/

/-- 42_fix2float.md R75: the value of a normal word in the rule's own form, and of `+0`. -/
def Obligations.ValueOfAWord : Prop :=
  (∀ w : Word, 1 ≤ f32Exp w → f32Exp w ≤ 254 →
    f32Val w = some ((-1 : Rat) ^ f32Sign w * (2 : Rat) ^ ((f32Exp w : Int) - 127) *
      (1 + (f32Frac w : Rat) / 2 ^ 23))) ∧
  f32Val 0x00000000#32 = some 0

/-- 42_fix2float.md R77: sixteenth-unit unpacking is exact, and the only word with that value. -/
def Obligations.SixteenthUnpackingIsExact : Prop :=
  ∀ n : Int, n.natAbs < 2 ^ 24 →
    f32Val (f32Sixteenths n) = some ((n : Rat) / 16) ∧
    ∀ w : Word, f32Val w = some ((n : Rat) / 16) → w = f32Sixteenths n

/-- 42_fix2float.md R79: quarter-unit unpacking returns the word nearest to the exact quotient. -/
def Obligations.QuarterUnpackingIsNearest : Prop :=
  ∀ v : BitVec 20, IsNearestF32 (f32Div4000 v) ((v.toNat : Rat) / 4000)

/-- 42_fix2float.md R79, R80: the exponent of the rule exists and is the converter's, the quotient
has 24 bits, and twice the remainder is never the divisor. -/
def Obligations.DivisionHasNoTies : Prop :=
  ∀ (v : BitVec 20) (k : Nat), v ≠ 0#20 →
    (4000 * 2 ^ k ≤ v.toNat * 2 ^ 12 ∧ v.toNat * 2 ^ 12 < 4000 * 2 ^ (k + 1) ↔ k = div4000Exp v) ∧
    2 * div4000Rem v ≠ 4000 ∧ 2 ^ 23 ≤ div4000Rounded v ∧ div4000Rounded v < 2 ^ 24

/-- 42_fix2float.md R81: when a Barometer result is exact, how often, and its error otherwise. -/
def Obligations.BarometerExactWhen125Divides : Prop :=
  (∀ v : BitVec 20,
    (f32Val (f32Div4000 v) = some ((v.toNat : Rat) / 4000) ↔ 125 ∣ v.toNat) ∧
    ∃ y, f32Val (f32Div4000 v) = some y ∧
      |y - (v.toNat : Rat) / 4000| ≤ ((v.toNat : Rat) / 4000) / 2 ^ 24) ∧
  Set.ncard {v : BitVec 20 | 125 ∣ v.toNat} = 8389

/-- 42_fix2float.md R82: every response is `+0` or a normal number in the rule's ranges; a
Barometer result is never negative; the carry-out branch of R79 is never taken. -/
def Obligations.ResultsAreZeroOrNormalInRange : Prop :=
  (∀ b0 b1 b2 : Byte, decpa .twosComplement .barometer b0 b1 b2 = 0#32 ∨
    115 ≤ f32Exp (decpa .twosComplement .barometer b0 b1 b2) ∧
    f32Exp (decpa .twosComplement .barometer b0 b1 b2) ≤ 135 ∧
    ∃ y, f32Val (decpa .twosComplement .barometer b0 b1 b2) = some y ∧
      1 / 4000 ≤ y ∧ y ≤ 26214375 / 100000) ∧
  (∀ b0 b1 b2 : Byte, f32Sign (decpa .twosComplement .barometer b0 b1 b2) = 0) ∧
  (∀ b0 b1 b2 : Byte, decpa .twosComplement .altimeter b0 b1 b2 = 0#32 ∨
    123 ≤ f32Exp (decpa .twosComplement .altimeter b0 b1 b2) ∧
    f32Exp (decpa .twosComplement .altimeter b0 b1 b2) ≤ 142 ∧
    ∃ y, f32Val (decpa .twosComplement .altimeter b0 b1 b2) = some y ∧ 1 / 16 ≤ |y| ∧ |y| ≤ 32768) ∧
  (∀ b0 b1 : Byte, dect b0 b1 = 0#32 ∨ 123 ≤ f32Exp (dect b0 b1) ∧ f32Exp (dect b0 b1) ≤ 142 ∧
    ∃ y, f32Val (dect b0 b1) = some y ∧ 1 / 16 ≤ |y| ∧ |y| ≤ 32768) ∧
  (∀ v : BitVec 20, div4000Rounded v ≠ 2 ^ 24)

/-- 42_fix2float.md R83 (a) to (c): rounding the quotient once to 24 significant bits, or to 53
first and then to 24, gives the converter's value and no other. -/
def Obligations.EveryDivisionPrecisionAgrees : Prop :=
  ∀ (v : BitVec 20) (y : Rat), f32Val (f32Div4000 v) = some y →
    (∀ y', IsNearestSignificant 24 y' ((v.toNat : Rat) / 4000) ↔ y' = y) ∧
    (∀ d, IsNearestSignificant 53 d ((v.toNat : Rat) / 4000) →
      ∀ y', IsNearestSignificant 24 y' d ↔ y' = y)

/-- 42_fix2float.md R83: multiplying by the rounded reciprocal is not the same. At `v = 5` the
product is nearer to another word than to the one the division gives. -/
def Obligations.ReciprocalMultiplicationDiffers : Prop :=
  f32Div4000 1#20 = 0x3983126F#32 ∧ f32Div4000 5#20 = 0x3AA3D70A#32 ∧
  ∃ c y y', f32Val 0x3983126F#32 = some c ∧ f32Val 0x3AA3D70A#32 = some y ∧
    f32Val 0x3AA3D70B#32 = some y' ∧ |y' - 5 * c| < |y - 5 * c|

/-! ### Invariant, reset and the host's duties -/

/-- The invariant every step keeps (R82): each response given is `+0` or a normal number whose
biased exponent is 115 to 142. -/
def Obligations.StepKeepsResponsesPlain : Prop :=
  ∀ s t : State, ResponsesPlain s → step s = .next t → ResponsesPlain t

/-- The invariant holds after reset, whichever mode it leaves. The empty list of responses is the
model's choice (log entry 3). -/
def Obligations.ResetHasResponsesPlain : Prop :=
  ResponsesPlain State.reset ∧ ∀ m : Mode, ResponsesPlain (State.resetTo m)

/-- 10_state.md R27, 70_reset_and_hazards.md R120, R121: reset leaves one of the two modes, no
command outstanding, and the block waits; in every state, with nothing presented, a step changes
nothing, so no response comes unasked (30_encoding.md R56); a reset by the port does the same to MODE. How `rst` is
taken, and the fields beside MODE, are the model's choices (log entries 1 to 4). -/
def Obligations.ResetLeavesOneOfTwoModesAndWaits : Prop :=
  (State.reset = State.resetTo .barometer ∨ State.reset = State.resetTo .altimeter) ∧
  (∀ m : Mode, (State.resetTo m).mode = m ∧ step (State.resetTo m) = .next (State.resetTo m)) ∧
  (∀ s : State, s.inputs = [] → step s = .next s) ∧
  (∀ (s : State) (rest : List HostInput), s.inputs = .rst true :: rest →
    ∃ m, step s = .next { s with
      mode := m, rst := true, inputs := rest, resetDraws := s.resetDraws + 1 }) ∧
  (∀ (s : State) (rest : List HostInput), s.inputs = .rst false :: rest →
    step s = .next { s with rst := false, inputs := rest })

/-- 70_reset_and_hazards.md R122: a command presented while `rst` is asserted is not accepted and
gets no response; a reserved word is not refused then either. The input is gone, which is the
model's choice (log entry 4). -/
def Obligations.CommandsUnderResetAreNotAccepted : Prop :=
  ∀ (s : State) (cmd : Word) (rest : List HostInput), s.rst = true →
    s.inputs = .command cmd :: rest → step s = .next { s with inputs := rest }

/-- 70_reset_and_hazards.md R123, 10_state.md R27: if the host keeps the boot rule, what it is shown
does not depend on the mode reset left, nor on what any later reset leaves. The draws of the reset
mode and the taking of `rst` are the model's choices (log entries 1 and 4). -/
def Obligations.BootRuleHidesTheResetMode : Prop :=
  ∀ (k : Nat) (s s' : State), s.inputs = s'.inputs → s.rst = s'.rst → s.responses = s'.responses →
    bootRule false s.rst s.inputs = true → shown (run k s) = shown (run k s')

/-! ### Annex -/

/-- 49_annex_encoders.md R91, R92: the two bytes of `encode_sealevel` for every rounding of the
product by 500; where the rounding keeps integers, as every candidate of R92 does, a product that
is an integer of 16 bits is the raw value, and 101.326 gives C5, E7. Outside the precondition of
R96 the result is what the range policy gives for the input (R90); a policy that may depend on the
input, and the type of inputs, are the model's choices (log entry 10). -/
def Obligations.SealevelBytes : Prop :=
  ∀ (encRound : Rat → Int) (encRange : EncFloat → Option (List Byte)),
    (∀ (x : Rat) (raw : BitVec 16), encRound (x * 500) = raw.toNat →
      encodeSealevel encRound encRange (.finite x) = some [raw.extractLsb' 8 8, raw.extractLsb' 0 8]) ∧
    ((∀ n : Nat, n ≤ 65535 → encRound n = n) →
      (∀ (x : Rat) (raw : BitVec 16), x * 500 = raw.toNat →
        encodeSealevel encRound encRange (.finite x) =
          some [raw.extractLsb' 8 8, raw.extractLsb' 0 8]) ∧
      encodeSealevel encRound encRange (.finite (101326 / 1000)) = some [0xC5#8, 0xE7#8]) ∧
    (∀ x : Rat, encRound (x * 500) < 0 ∨ 65535 < encRound (x * 500) →
      encodeSealevel encRound encRange (.finite x) = encRange (.finite x)) ∧
    encodeSealevel encRound encRange .notFinite = encRange .notFinite

/-- 49_annex_encoders.md R93, R94, R97: the six bytes of `encode_threshold` in order, Barometer
fields the rounded product by 500 and Altimeter fields converted without scaling, with the worked
example of R97 and the Altimeter row of 95_test_vectors.md section 5.3. With either field outside
the precondition of R96 the result is what the range policy gives for the inputs; the policy's
form, and that the altitude precondition is the domain of the conversion, are the model's choices
(log entry 10). -/
def Obligations.ThresholdBytes : Prop :=
  ∀ (encRound : Rat → Int) (encIntConv : Rat → Option (BitVec 16))
    (encRange : EncFloat → Byte → EncFloat → Byte → Mode → Option (List Byte)) (tt tw : Byte),
    (∀ (x w : Rat) (rx rw : BitVec 16), encRound (x * 500) = rx.toNat → encRound (w * 500) = rw.toNat →
      encodeThreshold encRound encIntConv encRange (.finite x) tt (.finite w) tw .barometer =
        some [rx.extractLsb' 8 8, rx.extractLsb' 0 8, tt, rw.extractLsb' 8 8, rw.extractLsb' 0 8, tw]) ∧
    (∀ (x w : Rat) (rx rw : BitVec 16), encIntConv x = some rx → encIntConv w = some rw →
      encodeThreshold encRound encIntConv encRange (.finite x) tt (.finite w) tw .altimeter =
        some [rx.extractLsb' 8 8, rx.extractLsb' 0 8, tt, rw.extractLsb' 8 8, rw.extractLsb' 0 8, tw]) ∧
    ((∀ n : Nat, n ≤ 65535 → encRound n = n) →
      encodeThreshold encRound encIntConv encRange (.finite 100) 20#8 (.finite (1 / 2)) 1#8 .barometer =
        some [0xC3#8, 0x50#8, 0x14#8, 0x00#8, 0xFA#8, 0x01#8]) ∧
    ((∀ n : Nat, n ≤ 32767 → encIntConv n = some (BitVec.ofNat 16 n)) →
      encodeThreshold encRound encIntConv encRange (.finite 1000) 25#8 (.finite 10) 2#8 .altimeter =
        some [0x03#8, 0xE8#8, 0x19#8, 0x00#8, 0x0A#8, 0x02#8]) ∧
    (∀ x w : Rat, (encRound (x * 500) < 0 ∨ 65535 < encRound (x * 500) ∨
        encRound (w * 500) < 0 ∨ 65535 < encRound (w * 500)) →
      encodeThreshold encRound encIntConv encRange (.finite x) tt (.finite w) tw .barometer =
        encRange (.finite x) tt (.finite w) tw .barometer) ∧
    (∀ x w : Rat, encIntConv x = none ∨ encIntConv w = none →
      encodeThreshold encRound encIntConv encRange (.finite x) tt (.finite w) tw .altimeter =
        encRange (.finite x) tt (.finite w) tw .altimeter) ∧
    (∀ (p : EncFloat) (mode : Mode),
      encodeThreshold encRound encIntConv encRange .notFinite tt p tw mode =
        encRange .notFinite tt p tw mode ∧
      encodeThreshold encRound encIntConv encRange p tt .notFinite tw mode =
        encRange p tt .notFinite tw mode)
end

