-- ==== Sys2Proof/Laws/Annex.lean ====
section
/-! SUPPORT. What the annex fields and encoders can do. -/

namespace Sys2Proof.Machine

/-- A pressure whose raw value fits is that raw value. -/
theorem pressureField_of_raw {encRound : Rat → Int} {x : Rat} {raw : BitVec 16}
    (h : encRound (x * 500) = raw.toNat) : pressureField encRound (.finite x) = some raw := by
  have hlt := raw.isLt
  rw [pressureField, pressureRaw, h, if_pos (by omega)]
  simp

/-- A pressure has no field exactly when it is outside the precondition of R96. -/
theorem pressureField_eq_none_iff (encRound : Rat → Int) (p : EncFloat) :
    pressureField encRound p = none ↔
      p = .notFinite ∨ ∃ x, p = .finite x ∧ (encRound (x * 500) < 0 ∨ 65535 < encRound (x * 500)) := by
  cases p with
  | notFinite => simp [pressureField]
  | finite x =>
    by_cases h : 0 ≤ encRound (x * 500) ∧ encRound (x * 500) ≤ 65535
    · simp [pressureField, pressureRaw, h]
    · have h' : encRound (x * 500) < 0 ∨ 65535 < encRound (x * 500) := by omega
      simp [pressureField, pressureRaw, h, h']

@[simp] theorem thresholdField_barometer (encRound : Rat → Int)
    (encIntConv : Rat → Option (BitVec 16)) (x : EncFloat) :
    thresholdField encRound encIntConv .barometer x = pressureField encRound x := rfl

@[simp] theorem thresholdField_altimeter (encRound : Rat → Int)
    (encIntConv : Rat → Option (BitVec 16)) (x : EncFloat) :
    thresholdField encRound encIntConv .altimeter x = altitudeField encIntConv x := rfl

/-- A value that is not finite has no field in either mode. -/
@[simp] theorem thresholdField_notFinite (encRound : Rat → Int)
    (encIntConv : Rat → Option (BitVec 16)) (mode : Mode) :
    thresholdField encRound encIntConv mode .notFinite = none := by cases mode <;> rfl

end Sys2Proof.Machine
end

