-- ==== Sys2Proof/Laws/Converter.lean ====
section
/-! SUPPORT. The fields and the value of a packed binary32 word, and the bounds of the two
conversions (42_fix2float.md R75, R77, R79). -/

namespace Sys2Proof.Machine

/-- Packing is a sum of disjoint fields. -/
theorem packF32_toNat {s E F : Nat} (hs : s < 2) (hE : E < 256) (hF : F < 2 ^ 23) :
    (packF32 s E F).toNat = s * 2 ^ 31 + E * 2 ^ 23 + F := by
  have h1 : s <<< 31 ||| E <<< 23 = s * 2 ^ 31 + E * 2 ^ 23 := by
    rw [Nat.shiftLeft_eq s, Nat.mul_comm s, ← Nat.two_pow_add_eq_or_of_lt (i := 31)]
    · rw [Nat.shiftLeft_eq]
    · rw [Nat.shiftLeft_eq]; omega
  have h2 : s * 2 ^ 31 + E * 2 ^ 23 = 2 ^ 23 * (s * 2 ^ 8 + E) := by omega
  rw [packF32, h1, h2, ← Nat.two_pow_add_eq_or_of_lt hF, BitVec.toNat_ofNat]
  omega

theorem f32Sign_packF32 {s E F : Nat} (hs : s < 2) (hE : E < 256) (hF : F < 2 ^ 23) :
    f32Sign (packF32 s E F) = s := by
  rw [f32Sign, BitVec.extractLsb'_toNat, packF32_toNat hs hE hF, Nat.shiftRight_eq_div_pow]; omega

theorem f32Exp_packF32 {s E F : Nat} (hs : s < 2) (hE : E < 256) (hF : F < 2 ^ 23) :
    f32Exp (packF32 s E F) = E := by
  rw [f32Exp, BitVec.extractLsb'_toNat, packF32_toNat hs hE hF, Nat.shiftRight_eq_div_pow]; omega

theorem f32Frac_packF32 {s E F : Nat} (hs : s < 2) (hE : E < 256) (hF : F < 2 ^ 23) :
    f32Frac (packF32 s E F) = F := by
  rw [f32Frac, BitVec.extractLsb'_toNat, packF32_toNat hs hE hF, Nat.shiftRight_eq_div_pow]; omega

/-- The number a packed normal word denotes (R75). -/
theorem f32Val_packF32 {s E F : Nat} (hs : s < 2) (hE : 1 ≤ E ∧ E ≤ 254) (hF : F < 2 ^ 23) :
    f32Val (packF32 s E F) =
      some ((-1 : Rat) ^ s * (((2 ^ 23 + F) * 2 ^ E : Nat) : Rat) / (2 ^ 150 : Nat)) := by
  have hE' : E < 256 := by omega
  have hne : packF32 s E F ≠ 0#32 := by
    intro h
    have := congrArg BitVec.toNat h
    rw [packF32_toNat hs hE' hF] at this
    simp at this; omega
  rw [f32Val, if_neg hne, f32Exp_packF32 hs hE' hF, if_pos hE, f32Sign_packF32 hs hE' hF,
    f32Frac_packF32 hs hE' hF]

@[simp] theorem f32Val_zero : f32Val 0#32 = some 0 := by simp [f32Val]

@[simp] theorem f32Sixteenths_zero : f32Sixteenths 0 = 0#32 := by simp [f32Sixteenths]

@[simp] theorem f32Div4000_zero : f32Div4000 0#20 = 0#32 := by simp [f32Div4000]

/-- The fraction of R77: `m` shifted left so that its leading one is bit 23, without that bit. -/
theorem sixteenths_frac {m : Nat} (hm : m ≠ 0) (h24 : m < 2 ^ 24) :
    (m <<< (23 - m.log2)) &&& 0x7FFFFF = m * 2 ^ (23 - m.log2) - 2 ^ 23 ∧
      2 ^ 23 ≤ m * 2 ^ (23 - m.log2) ∧ m * 2 ^ (23 - m.log2) < 2 ^ 24 := by
  have hk : m.log2 ≤ 23 := by
    have := (Nat.log2_lt hm).mpr h24; omega
  have hlo := Nat.log2_self_le hm
  have hhi := Nat.lt_log2_self (n := m)
  have hp : 2 ^ m.log2 * 2 ^ (23 - m.log2) = 2 ^ 23 := by rw [← pow_add]; congr 1; omega
  have hp' : 2 ^ (m.log2 + 1) * 2 ^ (23 - m.log2) = 2 ^ 24 := by rw [← pow_add]; congr 1; omega
  have hpos : 0 < 2 ^ (23 - m.log2) := by positivity
  have h1 : 2 ^ 23 ≤ m * 2 ^ (23 - m.log2) := hp ▸ Nat.mul_le_mul_right _ hlo
  have h2 : m * 2 ^ (23 - m.log2) < 2 ^ 24 := hp' ▸ Nat.mul_lt_mul_of_pos_right hhi hpos
  refine ⟨?_, h1, h2⟩
  rw [Nat.shiftLeft_eq, show (0x7FFFFF : Nat) = 2 ^ 23 - 1 from rfl, Nat.and_two_pow_sub_one_eq_mod]
  omega

/-- The exponent of R79 is the one the rule describes, and lies in the rule's range. -/
theorem div4000Exp_spec {v : BitVec 20} (hv : v ≠ 0#20) :
    4000 * 2 ^ div4000Exp v ≤ v.toNat * 2 ^ 12 ∧
      v.toNat * 2 ^ 12 < 4000 * 2 ^ (div4000Exp v + 1) ∧ div4000Exp v ≤ 20 := by
  have hv0 : v.toNat ≠ 0 := fun h => hv (BitVec.eq_of_toNat_eq (by simpa using h))
  have hlt := v.isLt
  have hx : v.toNat * 2 ^ 12 / 4000 ≠ 0 := by omega
  have hlo := Nat.log2_self_le hx
  have hhi := Nat.lt_log2_self (n := v.toNat * 2 ^ 12 / 4000)
  have hk : div4000Exp v < 21 := (Nat.log2_lt hx).mpr (by omega)
  simp only [div4000Exp] at *
  refine ⟨?_, ?_, by omega⟩
  · have := Nat.div_mul_le_self (v.toNat * 2 ^ 12) 4000
    omega
  · have := Nat.lt_mul_div_succ (v.toNat * 2 ^ 12) (b := 4000) (by omega)
    omega

/-- The quotient of R79 has its leading one at bit 23. -/
theorem div4000Quot_bounds {v : BitVec 20} (hv : v ≠ 0#20) :
    2 ^ 23 ≤ div4000Quot v ∧ div4000Quot v < 2 ^ 24 := by
  obtain ⟨hlo, hhi, hk⟩ := div4000Exp_spec hv
  have hp : 2 ^ div4000Exp v * 2 ^ (35 - div4000Exp v) = 2 ^ 35 := by
    rw [← pow_add]; congr 1; omega
  have hp' : 2 ^ (div4000Exp v + 1) * 2 ^ (35 - div4000Exp v) = 2 ^ 36 := by
    rw [← pow_add]; congr 1; omega
  have hpos : 0 < 2 ^ (35 - div4000Exp v) := by positivity
  have h1 := Nat.mul_le_mul_right (2 ^ (35 - div4000Exp v)) hlo
  have h2 := Nat.mul_lt_mul_of_pos_right hhi hpos
  rw [Nat.mul_assoc, hp] at h1
  rw [Nat.mul_assoc 4000, hp'] at h2
  have e : v.toNat * 2 ^ 12 * 2 ^ (35 - div4000Exp v) = 2 ^ 12 * div4000Scaled v := by
    rw [div4000Scaled]; ring
  rw [e] at h1 h2
  rw [div4000Quot]
  omega

/-- Dividend, quotient and remainder of R79. -/
theorem div4000_divmod (v : BitVec 20) :
    div4000Scaled v = 4000 * div4000Quot v + div4000Rem v ∧ div4000Rem v < 4000 :=
  ⟨(Nat.div_add_mod _ _).symm, Nat.mod_lt _ (by omega)⟩

end Sys2Proof.Machine
end

