-- ==== Sys2Proof/Laws/Decode.lean ====
section
/-! SUPPORT. The decoder's masks, slices and concatenations as arithmetic on the word's number. -/

namespace Sys2Proof

/-- A mask of the bits from `k` up, compared with a multiple of `2^k`, compares the upper bits. -/
theorem and_high_mask_eq_iff (w : Word) (k p : Nat) (hk : k ≤ 32) (hp : p < 2 ^ (32 - k)) :
    w &&& BitVec.ofNat 32 (2 ^ 32 - 2 ^ k) = BitVec.ofNat 32 (p * 2 ^ k) ↔
      w.toNat / 2 ^ k = p := by
  have hmask : BitVec.ofNat 32 (2 ^ 32 - 2 ^ k) = BitVec.allOnes 32 <<< k := by
    apply BitVec.eq_of_toNat_eq
    simp only [BitVec.toNat_ofNat, BitVec.toNat_shiftLeft, BitVec.toNat_allOnes,
      Nat.shiftLeft_eq]
    interval_cases k <;> rfl
  have hand : w &&& BitVec.allOnes 32 <<< k = (w >>> k) <<< k := by
    ext i hi
    have hbit : (BitVec.allOnes 32).getLsbD (i - k) = true := by
      simp only [BitVec.getLsbD_allOnes, decide_eq_true_eq]; omega
    simp only [BitVec.getElem_and, BitVec.getElem_shiftLeft]
    by_cases h : i < k
    · simp [h]
    · have hki : k + (i - k) = i := by omega
      have hall : (BitVec.allOnes 32)[i - k]'(by omega) = true := by
        rw [← BitVec.getLsbD_eq_getElem]; exact hbit
      simp [h, hki, hall, BitVec.getLsbD_eq_getElem hi, -BitVec.reduceAllOnes]
  rw [hmask, hand]
  have hpow : 2 ^ k * 2 ^ (32 - k) = 2 ^ 32 := by rw [← pow_add]; congr 1; omega
  have hw := w.isLt
  have hq : w.toNat / 2 ^ k < 2 ^ (32 - k) := by
    rw [Nat.div_lt_iff_lt_mul (by positivity)]; nlinarith
  have h1 : w.toNat / 2 ^ k * 2 ^ k < 2 ^ 32 := by nlinarith [Nat.pow_pos (n := k) (a := 2) (by omega)]
  have h2 : p * 2 ^ k < 2 ^ 32 := by nlinarith [Nat.pow_pos (n := k) (a := 2) (by omega)]
  rw [← BitVec.toNat_inj]
  simp only [BitVec.toNat_shiftLeft, BitVec.toNat_ushiftRight, BitVec.toNat_ofNat,
    Nat.shiftLeft_eq, Nat.shiftRight_eq_div_pow, Nat.mod_eq_of_lt h1, Nat.mod_eq_of_lt h2]
  exact Nat.mul_left_inj (by positivity)

/-- A slice as a quotient and a remainder. -/
theorem toNat_slice (w : Word) (lo len : Nat) :
    (w.extractLsb' lo len).toNat = w.toNat / 2 ^ lo % 2 ^ len := by
  simp [BitVec.extractLsb'_toNat, Nat.shiftRight_eq_div_pow]

/-- A concatenation as a sum. -/
theorem toNat_append_eq {m n : Nat} (x : BitVec m) (y : BitVec n) :
    (x ++ y).toNat = x.toNat * 2 ^ n + y.toNat := by
  rw [BitVec.toNat_append, Nat.shiftLeft_eq, Nat.mul_comm,
    ← Nat.two_pow_add_eq_or_of_lt y.isLt]

/-- The word of each instruction as a number. -/
theorem encode_decpa_toNat (b0 b1 b2 : Byte) :
    (encode (.decpa b0 b1 b2)).toNat =
      0x10000000 + b0.toNat * 65536 + b1.toNat * 256 + b2.toNat := by
  simp only [encode, toNat_append_eq, BitVec.toNat_ofNat]; omega

theorem encode_dect_toNat (b0 b1 : Byte) :
    (encode (.dect b0 b1)).toNat = 0x20000000 + b0.toNat * 256 + b1.toNat := by
  simp only [encode, toNat_append_eq, BitVec.toNat_ofNat]; omega

theorem encode_setmode_toNat (m : Mode) :
    (encode (.setmode m)).toNat = 0x30000000 + m.toBit.toNat := by
  simp only [encode, toNat_append_eq, BitVec.toNat_ofNat]; omega

@[simp] theorem ofBit_toBit (m : Mode) : Mode.ofBit m.toBit = m := by cases m <;> rfl

theorem decpaMask_iff (w : Word) : w &&& 0xFF000000#32 = 0x10000000#32 ↔ w.toNat / 2 ^ 24 = 0x10 :=
  and_high_mask_eq_iff w 24 0x10 (by omega) (by omega)

theorem dectMask_iff (w : Word) :
    w &&& 0xFFFF0000#32 = 0x20000000#32 ↔ w.toNat / 2 ^ 16 = 0x2000 :=
  and_high_mask_eq_iff w 16 0x2000 (by omega) (by omega)

theorem setmodeMask_iff (w : Word) :
    w &&& 0xFFFFFFFE#32 = 0x30000000#32 ↔ w.toNat / 2 ^ 1 = 0x18000000 :=
  and_high_mask_eq_iff w 1 0x18000000 (by omega) (by omega)

end Sys2Proof
end

