-- ==== Sys2Proof/Laws/Operands.lean ====
section
/-! SUPPORT. The extractor's sign rule and its bounds. -/

namespace Sys2Proof.Machine

/-- The spec's sign extension is the two's-complement integer of a bit vector (R9). -/
theorem sext_eq_toInt {n : Nat} (v : BitVec n) : sext v = v.toInt := by
  rw [sext, BitVec.toInt_eq_msb_cond]

/-- Sign extension by the strict comparison of R69 and R72. -/
theorem sext_eq_ite {n : Nat} (v : BitVec n) :
    sext v = if 2 * v.toNat < 2 ^ n then (v.toNat : Int) else (v.toNat : Int) - (2 ^ n : Nat) := by
  rw [sext_eq_toInt, BitVec.toInt]

theorem sext20_bounds (v : BitVec 20) : -524288 ≤ sext v ∧ sext v ≤ 524287 := by
  rw [sext_eq_ite]; split <;> omega

theorem sext12_bounds (t : BitVec 12) : -2048 ≤ sext t ∧ sext t ≤ 2047 := by
  rw [sext_eq_ite]; split <;> omega

/-- Sign extension loses nothing. -/
theorem sext_injective {n : Nat} {v w : BitVec n} (h : sext v = sext w) : v = w :=
  BitVec.toInt_inj.mp (by simpa only [sext_eq_toInt] using h)

@[simp] theorem altimeterInt_twosComplement (v : BitVec 20) :
    altimeterInt .twosComplement v = sext v := rfl

end Sys2Proof.Machine
end

