-- ==== Sys2Proof/Laws/PerInstr.lean ====
section
/-! SUPPORT. Statements for all instructions, one lemma per constructor. -/

namespace Sys2Proof.Laws.EncodedWordIsLegal

/-- The word of an instruction is a legal command word (30_encoding.md R52 to R55, R57). -/
def Statement (i : Instr) : Prop := commandWellFormed (encode i) = true

theorem slices_legal {w : Word} {op n : Nat} (h : w.toNat = op * 2 ^ 28 + n)
    (hop : op = 1 ∧ n < 2 ^ 24 ∨ op = 2 ∧ n < 2 ^ 16 ∨ op = 3 ∧ n < 2) :
    commandWellFormed w = true := by
  have h28 : (w.extractLsb' 28 4).toNat = op := by rw [toNat_slice]; omega
  simp only [commandWellFormed, opDefined, decpaZeros, dectZeros, setmodeZeros, opField,
    Bool.and_eq_true, Bool.or_eq_true, beq_iff_eq, bne_iff_ne, ne_eq, ← BitVec.toNat_inj,
    h28, toNat_slice, BitVec.toNat_ofNat]
  omega

theorem decpa (b0 b1 b2 : Byte) : Statement (.decpa b0 b1 b2) :=
  slices_legal (op := 1) (n := b0.toNat * 65536 + b1.toNat * 256 + b2.toNat)
    (by rw [encode_decpa_toNat]; omega) (by omega)

theorem dect (b0 b1 : Byte) : Statement (.dect b0 b1) :=
  slices_legal (op := 2) (n := b0.toNat * 256 + b1.toNat)
    (by rw [encode_dect_toNat]; omega) (by omega)

theorem setmode (m : Mode) : Statement (.setmode m) :=
  slices_legal (op := 3) (n := m.toBit.toNat) (by rw [encode_setmode_toNat]; omega) (by omega)

end Sys2Proof.Laws.EncodedWordIsLegal
end

