-- ==== Sys2Proof/Laws/State.lean ====
section
/-! SUPPORT. One lemma per field per update of State. -/

namespace Sys2Proof.Machine.State

@[simp] theorem readMode_eq (s : State) : s.readMode = s.mode := rfl

@[simp] theorem respond_mode (s : State) (w : Word) : (s.respond w).mode = s.mode := rfl
@[simp] theorem respond_rst (s : State) (w : Word) : (s.respond w).rst = s.rst := rfl
@[simp] theorem respond_inputs (s : State) (w : Word) : (s.respond w).inputs = s.inputs := rfl
@[simp] theorem respond_responses (s : State) (w : Word) :
    (s.respond w).responses = s.responses ++ [w] := rfl
@[simp] theorem respond_resetDraws (s : State) (w : Word) :
    (s.respond w).resetDraws = s.resetDraws := rfl

@[simp] theorem writeMode_mode (s : State) (m : Mode) : (s.writeMode m).mode = m := rfl
@[simp] theorem writeMode_rst (s : State) (m : Mode) : (s.writeMode m).rst = s.rst := rfl
@[simp] theorem writeMode_inputs (s : State) (m : Mode) : (s.writeMode m).inputs = s.inputs := rfl
@[simp] theorem writeMode_responses (s : State) (m : Mode) :
    (s.writeMode m).responses = s.responses := rfl
@[simp] theorem writeMode_resetDraws (s : State) (m : Mode) :
    (s.writeMode m).resetDraws = s.resetDraws := rfl

@[simp] theorem driveRst_true_mode (s : State) :
    (s.driveRst true).mode = Config.modeReset s.resetDraws := rfl
@[simp] theorem driveRst_false_mode (s : State) : (s.driveRst false).mode = s.mode := rfl
@[simp] theorem driveRst_rst (s : State) (b : Bool) : (s.driveRst b).rst = b := by cases b <;> rfl
@[simp] theorem driveRst_inputs (s : State) (b : Bool) : (s.driveRst b).inputs = s.inputs := by
  cases b <;> rfl
@[simp] theorem driveRst_responses (s : State) (b : Bool) :
    (s.driveRst b).responses = s.responses := by cases b <;> rfl
@[simp] theorem driveRst_true_resetDraws (s : State) :
    (s.driveRst true).resetDraws = s.resetDraws + 1 := rfl
@[simp] theorem driveRst_false_resetDraws (s : State) :
    (s.driveRst false).resetDraws = s.resetDraws := rfl

@[simp] theorem withFetchWord_mode (s : State) (n w : Nat) : (s.withFetchWord n w).mode = s.mode :=
  rfl
@[simp] theorem withFetchWord_rst (s : State) (n w : Nat) : (s.withFetchWord n w).rst = false := rfl
@[simp] theorem withFetchWord_inputs (s : State) (n w : Nat) :
    (s.withFetchWord n w).inputs = .command (BitVec.ofNat 32 (w % 2 ^ n)) :: s.inputs := rfl
@[simp] theorem withFetchWord_responses (s : State) (n w : Nat) :
    (s.withFetchWord n w).responses = s.responses := rfl
@[simp] theorem withFetchWord_resetDraws (s : State) (n w : Nat) :
    (s.withFetchWord n w).resetDraws = s.resetDraws := rfl

end Sys2Proof.Machine.State
end

