-- ==== Sys2Proof/Laws/Step.lean ====
section
/-! SUPPORT. What fetching, executing and stepping can do, each said once. -/

namespace Sys2Proof.Machine

/-- `fetch`, by the head of the inputs. -/
theorem fetch_nil {s : State} (h : s.inputs = []) : s.fetch = .settled s := by
  simp [State.fetch, h]

theorem fetch_rst {s : State} {b : Bool} {rest : List HostInput} (h : s.inputs = .rst b :: rest) :
    s.fetch = .settled ({ s with inputs := rest }.driveRst b) := by
  simp [State.fetch, h]

theorem fetch_under_reset {s : State} {cmd : Word} {rest : List HostInput}
    (h : s.inputs = .command cmd :: rest) (hr : s.rst = true) :
    s.fetch = .settled { s with inputs := rest } := by
  simp [State.fetch, h, hr]

theorem fetch_command {s : State} {cmd : Word} {rest : List HostInput}
    (h : s.inputs = .command cmd :: rest) (hr : s.rst = false) :
    s.fetch = .command cmd { s with inputs := rest } := by
  simp [State.fetch, h, hr]

theorem exec_decpa (b0 b1 b2 : Byte) (s : State) :
    exec (.decpa b0 b1 b2) s = .next (s.respond (decpa Config.altMostNeg s.mode b0 b1 b2)) := rfl

theorem exec_dect (b0 b1 : Byte) (s : State) :
    exec (.dect b0 b1) s = .next (s.respond (dect b0 b1)) := rfl

theorem exec_setmode (m : Mode) (s : State) :
    exec (.setmode m) s = .next ((s.writeMode m).respond 0#32) := rfl

/-- Every way a step can answer a next state. -/
theorem step_next_cases {s t : State} (h : step s = .next t) :
    (s.inputs = [] ∧ t = s) ∨
    (∃ b rest, s.inputs = .rst b :: rest ∧ t = { s with inputs := rest }.driveRst b) ∨
    (∃ cmd rest, s.inputs = .command cmd :: rest ∧ s.rst = true ∧ t = { s with inputs := rest }) ∨
    (∃ cmd rest i, s.inputs = .command cmd :: rest ∧ s.rst = false ∧ decode cmd = .ok i ∧
      exec i { s with inputs := rest } = .next t) := by
  rcases hi : s.inputs with _ | ⟨⟨cmd⟩ | ⟨b⟩, rest⟩
  · rw [step, fetch_nil hi] at h
    exact .inl ⟨rfl, by injection h with h; exact h.symm⟩
  · rcases Bool.eq_false_or_eq_true s.rst with hr | hr
    · rw [step, fetch_under_reset hi hr] at h
      exact .inr (.inr (.inl ⟨cmd, rest, rfl, hr, by injection h with h; exact h.symm⟩))
    · rw [step, fetch_command hi hr] at h
      cases hd : decode cmd with
      | error e => simp [hd] at h
      | ok i =>
        refine .inr (.inr (.inr ⟨cmd, rest, i, rfl, hr, hd, ?_⟩))
        simp only [hd] at h
        exact h
  · rw [step, fetch_rst hi] at h
    exact .inr (.inl ⟨b, rest, rfl, by injection h with h; exact h.symm⟩)

end Sys2Proof.Machine
end

