-- ==== Sys2Proof/Laws/Run.lean ====
section
/-! SUPPORT. Runs, one step at a time. -/

namespace Sys2Proof.Safety

open Sys2Proof.Machine

@[simp] theorem run_zero (s : State) : run 0 s = .next s := rfl

/-- A run of one step more, by its first step. -/
theorem run_succ (k : Nat) (s : State) :
    run (k + 1) s =
      match step s with
      | .next t => run k t
      | .fault r => .fault r
      | .refused r => .refused r := by
  refine (Host.Core.run.eq_2 Sys2Proof.core s k).trans ?_
  rw [show Sys2Proof.core.step s = step s from rfl]
  cases step s <;> rfl

theorem run_succ_of_next {s t : State} (h : step s = .next t) (k : Nat) :
    run (k + 1) s = run k t := by rw [run_succ, h]

theorem run_succ_of_refused {s : State} {r : Refusal} (h : step s = .refused r) (k : Nat) :
    run (k + 1) s = .refused r := by rw [run_succ, h]

end Sys2Proof.Safety
end

