-- ==== Sys2Proof/Tests/Slice0.lean ====
section
/-! SUPPORT. Tests. Expected words come from spec/: the rule or the table is named at each. -/

namespace Sys2Proof.Tests

open Sys2Proof.Machine Sys2Proof.Safety

/-- A state after reset in mode `m` in which the host does `inputs` next. -/
def at' (m : Mode) (inputs : List HostInput) : State := { State.resetTo m with inputs := inputs }

/-- The last response of a next state. -/
def answer (o : Host.Outcome State Fault Refusal) : Option Word :=
  match o with
  | .next s => s.responses.getLast?
  | .fault _ => none
  | .refused _ => none

/-! ### Well-formedness: each check refuses an ill-formed word (95 section 4) -/

theorem test_wf_op_zero_refused : opDefined 0x00000000#32 = false := by decide
theorem test_wf_op_15_refused : commandWellFormed 0xFFFFFFFF#32 = false := by decide
theorem test_wf_decpa_bit24_refused : decpaZeros 0x1162F5C0#32 = false := by decide
theorem test_wf_dect_bit16_refused : dectZeros 0x20011980#32 = false := by decide
theorem test_wf_setmode_bit1_refused : setmodeZeros 0x30000002#32 = false := by decide
theorem test_wf_legal_words : commandWellFormed 0x10FFFFFF#32 = true ∧
    commandWellFormed 0x2000FFFF#32 = true ∧ commandWellFormed 0x30000001#32 = true := by decide

/-! ### Decoding: words written out from R44 and R52 to R55 -/

theorem test_decode_decpa :
    decode 0b0001_0000_01100010_11110101_11000000#32 = .ok (.decpa 0x62#8 0xF5#8 0xC0#8) := by decide
theorem test_decode_dect :
    decode 0b0010_0000_00000000_00011001_10000000#32 = .ok (.dect 0x19#8 0x80#8) := by decide
theorem test_decode_setmode :
    decode 0b0011_0000_00000000_00000000_00000001#32 = .ok (.setmode .altimeter) := by decide
theorem test_decode_reserved : decode 0x31000000#32 = .error .setmodeBits := by decide
theorem test_encode_table_words : encode (.decpa 0x62#8 0xF5#8 0xC0#8) = 0x1062F5C0#32 ∧
    encode (.dect 0x19#8 0x80#8) = 0x20001980#32 ∧ encode (.setmode .altimeter) = 0x30000001#32 := by
  decide
theorem test_decodeTableWord : decodeTableWord 32 0x30000000 = some (.setmode .barometer) ∧
    decodeTableWord 32 0x30000003 = none ∧ decodeTableWord 64 0x130000000 = none := by decide

/-! ### One step of each instruction -/

/-- 40_decode_pa.md R60's worked example, Barometer. -/
theorem test_decpa_barometer :
    answer (step (at' .barometer [.command 0x1062F5C0#32])) = some 0x42CAAB85#32 := by decide
/-- 95 section 2.2: -17/16 m. -/
theorem test_decpa_altimeter_negative :
    answer (step (at' .altimeter [.command 0x10FFFEF0#32])) = some 0xBF880000#32 := by decide
/-- 95 section 3: -40.0 degrees. -/
theorem test_dect_negative :
    answer (step (at' .altimeter [.command 0x2000D800#32])) = some 0xC2200000#32 := by decide
/-- 41_decode_t.md R73: the most negative pattern, the ignored nibble set (95 section 2.3). -/
theorem test_dect_most_negative :
    answer (step (at' .barometer [.command 0x20008007#32])) = some 0xC3000000#32 := by decide
/-- 44_mode.md R85. -/
theorem test_setmode_alt : step (at' .barometer [.command 0x30000001#32]) =
    .next { State.resetTo .altimeter with responses := [0#32] } := rfl
/-- 95 section 4: a SETMODE word with `cmd[1]` set. -/
theorem test_setmode_reserved : step (at' .altimeter [.command 0x30000002#32]) =
    .refused .reservedCommand := rfl
/-- The first instruction after reset runs whatever mode reset left (10_state.md R27): 95, P4. -/
theorem test_first_after_reset :
    answer (step (State.reset.withFetchWord 32 0x20001900)) = some 0x41C80000#32 := by decide

/-! ### Witnesses: states and operands that meet the hypotheses of the statements -/

theorem wit_decode : decode 0x30000001#32 = .ok (.setmode .altimeter) := by decide
theorem wit_opcodeMap : 0x10000000#32 &&& 0xFF000000#32 = 0x10000000#32 ∧
    0x2000FFFF#32 &&& 0xFFFF0000#32 = 0x20000000#32 ∧
    0x30000001#32 &&& 0xFFFFFFFE#32 = 0x30000000#32 ∧
    decode 0x20010000#32 = .error .dectBits := by decide
theorem wit_stepRuns : (at' .barometer [.command 0x20001980#32]).rst = false ∧
    (at' .barometer [.command 0x20001980#32]).inputs = [.command 0x20001980#32] ∧
    decode 0x20001980#32 = .ok (.dect 0x19#8 0x80#8) := by decide
theorem wit_specStep : (at' .altimeter [.command 0x1080000F#32]).rst = false ∧
    (at' .altimeter [.command 0x1080000F#32]).inputs = .command 0x1080000F#32 :: [] ∧
    specStep (at' .altimeter [.command 0x1080000F#32]).mode 0x1080000F#32 =
      some (.altimeter, 0xC7000000#32) := by decide
theorem wit_specStep_refuses : specStep .altimeter 0x30000002#32 = none := by decide
/-- Program P3 of 95 section 6, its first four commands. -/
theorem wit_specRun : (at' .altimeter [.command 0x30000000#32, .command 0x10FFFFF0#32]).rst = false ∧
    (at' .altimeter [.command 0x30000000#32, .command 0x10FFFFF0#32]).inputs =
      [0x30000000#32, 0x10FFFFF0#32].map .command ∧
    specRun .altimeter [0x30000000#32, 0x10FFFFF0#32, 0x30000001#32, 0x10FFFFF0#32] =
      some (.altimeter, [0#32, 0x43831266#32, 0#32, 0xBD800000#32]) := by decide
theorem wit_refused : run 1 (at' .altimeter [.command 0x30000002#32]) = .refused .reservedCommand ∧
    commandWellFormed 0x30000002#32 = false := ⟨rfl, by decide⟩
theorem wit_legalInputs :
    legalInputs (at' .barometer [.rst true, .command 0x10000000#32, .rst false,
      .command 0x30000001#32, .command 0x10FFFFFF#32]).inputs = true := by decide
theorem wit_barometer : (State.resetTo .barometer).mode = .barometer := rfl
theorem wit_altimeter : (State.resetTo .altimeter).mode = .altimeter := rfl
theorem wit_altMostNeg : (State.resetTo .altimeter).mode = .altimeter ∧ (0x0F#8).toNat < 16 ∧
    ¬ (Mode.altimeter = .altimeter ∧ 0x80#8 = 0x80#8 ∧ 0x00#8 = 0x00#8 ∧ (0x10#8).toNat < 16) := by
  decide
theorem wit_order : (0x7FFFF#20).toNat < (0x80000#20).toNat ∧ sext 0x80000#20 < sext 0x7FFFF#20 ∧
    sext 0x800#12 < sext 0x7FF#12 ∧ sext (asm12 0x80#8 0x0F#8) < sext (asm12 0x7F#8 0xF0#8) ∧
    decpa .twosComplement .altimeter 0x80#8 0x00#8 0x00#8 =
      decpa .twosComplement .altimeter 0x80#8 0x00#8 0x0F#8 ∧
    dect 0x19#8 0x80#8 = dect 0x19#8 0x8F#8 := by decide
theorem wit_twoMeanings : (asm20 0x7F#8 0xFF#8 0xF0#8).toNat ≤ 0x7FFFF ∧
    0x80000 ≤ (asm20 0x80#8 0x00#8 0x00#8).toNat := by decide
theorem wit_setmode_next : exec (.setmode .altimeter) (State.resetTo .barometer) =
    .next { State.resetTo .altimeter with responses := [0#32] } := rfl
theorem wit_setmodeGoverns :
    (at' .barometer [.command 0x30000001#32, .command 0x10FFFFF0#32]).inputs =
      .command (encode (.setmode .altimeter)) :: .command (encode (.decpa 0xFF#8 0xFF#8 0xF0#8)) :: [] ∧
    (at' .barometer [.command 0x30000001#32, .command 0x10FFFFF0#32]).rst = false := by decide
theorem wit_modeChanges : ∃ t, step (at' .barometer [.command 0x30000001#32]) = .next t ∧
    t.mode ≠ (at' .barometer [.command 0x30000001#32]).mode :=
  ⟨_, rfl, by decide⟩
theorem wit_onlyMode : ∃ s s' t : State, s.rst = false ∧ s'.rst = false ∧ s.mode = s'.mode ∧ s ≠ s' ∧
    s.inputs = .command 0x10FFFFF0#32 :: [.rst true] ∧ s'.inputs = .command 0x10FFFFF0#32 :: [] ∧
    step s = .next t :=
  ⟨at' .altimeter [.command 0x10FFFFF0#32, .rst true],
    { at' .altimeter [.command 0x10FFFFF0#32] with responses := [0x41C80000#32], resetDraws := 7 }, _,
    rfl, rfl, rfl, by decide, rfl, rfl, rfl⟩
theorem wit_frame : ∃ t, exec (.decpa 0x62#8 0xF5#8 0xC0#8) (State.resetTo .barometer) = .next t ∧
    ∀ m, Instr.decpa 0x62#8 0xF5#8 0xC0#8 ≠ .setmode m := ⟨_, rfl, nofun⟩
theorem wit_formula20 : (0x80001#20).toNat > 0x7FFFF ∧ 0x80001#20 ≠ 0x80000#20 ∧
    0x801#12 ≠ 0x800#12 := by decide
theorem wit_value : 1 ≤ f32Exp 0x3D800000#32 ∧ f32Exp 0x3D800000#32 ≤ 254 := by decide
theorem wit_sixteenths : (-524288 : Int).natAbs < 2 ^ 24 ∧ (16777215 : Int).natAbs < 2 ^ 24 := by decide
theorem wit_division : (1#20 ≠ 0#20) ∧ 4000 * 2 ^ 0 ≤ (1#20).toNat * 2 ^ 12 ∧
    (1#20).toNat * 2 ^ 12 < 4000 * 2 ^ (0 + 1) ∧ div4000Exp 1#20 = 0 := by decide
theorem wit_precision : f32Val (f32Div4000 4000#20) = some 1 ∧
    IsNearestSignificant 53 1 (((4000#20).toNat : Rat) / 4000) := by
  refine ⟨?_, ⟨1, 0, by norm_num, by simp⟩, fun d' _ => ?_⟩
  · have hw : f32Div4000 4000#20 = packF32 0 127 0 := by decide
    rw [hw, f32Val_packF32 (by decide) (by decide) (by decide)]
    norm_num
  · norm_num
theorem wit_responsesPlain : ∃ s t : State, ResponsesPlain s ∧ s.responses ≠ [] ∧ step s = .next t := by
  refine ⟨{ at' .barometer [.command 0x1062F5C0#32] with responses := [0#32, 0x42CAAB85#32] }, _,
    fun w hw => ?_, by decide, rfl⟩
  rcases List.mem_cons.mp hw with rfl | hw
  · decide
  · rw [List.mem_singleton.mp hw]; decide
theorem wit_idle : ∃ s : State, s.inputs = [] ∧ s.responses ≠ [] :=
  ⟨{ State.resetTo .altimeter with responses := [0#32] }, rfl, by decide⟩
theorem wit_rst : (at' .barometer [.rst true]).inputs = .rst true :: [] ∧
    (at' .barometer [.rst false]).inputs = .rst false :: [] := ⟨rfl, rfl⟩
theorem wit_underReset : ∃ s : State, s.rst = true ∧ s.inputs = .command 0x30000002#32 :: [] :=
  ⟨{ at' .barometer [.command 0x30000002#32] with rst := true }, rfl, rfl⟩
/-- One pair of states, in different modes and with different draws to come: program P1 of
95 section 6 with a reset in it keeps the boot rule. Program P4 does not. -/
theorem wit_bootRule :
    (∃ s s' : State, s.inputs = s'.inputs ∧ s.rst = s'.rst ∧ s.responses = s'.responses ∧
      bootRule false s.rst s.inputs = true ∧ s.mode ≠ s'.mode ∧ s.resetDraws ≠ s'.resetDraws) ∧
    bootRule false false [.command 0x20001900#32, .command 0x1000A000#32] = false :=
  ⟨⟨at' .barometer [.command 0x30000000#32, .command 0x1062F5C0#32, .rst true, .rst false,
      .command 0x20001980#32],
    { at' .altimeter [.command 0x30000000#32, .command 0x1062F5C0#32, .rst true, .rst false,
      .command 0x20001980#32] with resetDraws := 7 },
    rfl, rfl, rfl, by decide, by decide, by decide⟩, by decide⟩
/-- A rounding that keeps integers, with a raw value at each boundary of the precondition: 0 and
65535 inside, -1 and 65536 outside; the product of R91's example. -/
theorem wit_sealevel : ∃ encRound : Rat → Int, (∀ n : Nat, n ≤ 65535 → encRound n = n) ∧
    encRound (0 * 500) = (0#16).toNat ∧ encRound (65535 / 500 * 500) = (0xFFFF#16).toNat ∧
    encRound (-1 / 500 * 500) < 0 ∧ 65535 < encRound (65536 / 500 * 500) ∧
    (101326 / 1000 : Rat) * 500 = (0xC5E7#16).toNat := by
  refine ⟨Rat.floor, fun n _ => by simpa using Rat.floor_intCast n, ?_⟩
  decide +kernel
/-- The same boundaries for a target and a window, and a conversion with a domain (signed reading
of R95). -/
theorem wit_threshold : ∃ (encRound : Rat → Int) (encIntConv : Rat → Option (BitVec 16)),
    (∀ n : Nat, n ≤ 65535 → encRound n = n) ∧
    (∀ n : Nat, n ≤ 32767 → encIntConv n = some (BitVec.ofNat 16 n)) ∧
    encRound (0 * 500) = (0#16).toNat ∧ encRound (65535 / 500 * 500) = (0xFFFF#16).toNat ∧
    encRound (-1 / 500 * 500) < 0 ∧ 65535 < encRound (65536 / 500 * 500) ∧
    encIntConv 32767 = some 0x7FFF#16 ∧ encIntConv 32768 = none := by
  refine ⟨Rat.floor, fun a => if a ≤ 32767 then some (BitVec.ofInt 16 a.floor) else none,
    fun n _ => by simpa using Rat.floor_intCast n, fun n hn => ?_, ?_⟩
  · have h : (n : Rat) ≤ 32767 := by exact_mod_cast hn
    have hf : (n : Rat).floor = n := by simpa using Rat.floor_intCast n
    simp [h, hf]
  · decide +kernel

end Sys2Proof.Tests
end

section
/-! PROOF. The decoder read backwards: what a decoded word was. -/

namespace Sys2Proof

@[simp] theorem toBit_ofBit (b : BitVec 1) : (Mode.ofBit b).toBit = b := by
  revert b; decide

/-- Every way a word can decode: the quotient that names its pattern (30_encoding.md R57), and the
instruction made of its slices. -/
theorem decode_ok_cases {w : Word} {i : Instr} (h : decode w = .ok i) :
    (w.toNat / 2 ^ 24 = 0x10 ∧
      i = .decpa (w.extractLsb' 16 8) (w.extractLsb' 8 8) (w.extractLsb' 0 8)) ∨
    (w.toNat / 2 ^ 16 = 0x2000 ∧ i = .dect (w.extractLsb' 8 8) (w.extractLsb' 0 8)) ∨
    (w.toNat / 2 ^ 1 = 0x18000000 ∧ i = .setmode (Mode.ofBit (w.extractLsb' 0 1))) := by
  simp only [decode, decpaMask_iff, dectMask_iff, setmodeMask_iff] at h
  split_ifs at h with hp ht hm
  · exact .inl ⟨hp, by injection h with h; exact h.symm⟩
  · exact .inr (.inl ⟨ht, by injection h with h; exact h.symm⟩)
  · exact .inr (.inr ⟨hm, by injection h with h; exact h.symm⟩)

/-- A word that decodes is the word of the instruction it decodes to: no bit of it is lost. -/
theorem encode_of_decode {w : Word} {i : Instr} (h : decode w = .ok i) : encode i = w := by
  apply BitVec.eq_of_toNat_eq
  rcases decode_ok_cases h with ⟨hw, rfl⟩ | ⟨hw, rfl⟩ | ⟨hw, rfl⟩
  · rw [encode_decpa_toNat]; simp only [toNat_slice]; omega
  · rw [encode_dect_toNat]; simp only [toNat_slice]; omega
  · rw [encode_setmode_toNat, toBit_ofBit, toNat_slice]; omega

end Sys2Proof
end

section
/-! PROOF. One step, by the head of the inputs. -/

namespace Sys2Proof.Machine

theorem step_nil {s : State} (h : s.inputs = []) : step s = .next s := by
  rw [step, fetch_nil h]

theorem step_rst {s : State} {b : Bool} {rest : List HostInput} (h : s.inputs = .rst b :: rest) :
    step s = .next ({ s with inputs := rest }.driveRst b) := by
  rw [step, fetch_rst h]

theorem step_command {s : State} {cmd : Word} {rest : List HostInput} {i : Instr}
    (h : s.inputs = .command cmd :: rest) (hr : s.rst = false) (hd : decode cmd = .ok i) :
    step s = exec i { s with inputs := rest } := by
  simp only [step, fetch_command h hr, hd]

/-- A step that takes a command with `rst` released and answers a next state executed it. -/
theorem exec_of_step_command {s t : State} {cmd : Word} {rest : List HostInput}
    (h : s.inputs = .command cmd :: rest) (hr : s.rst = false) (hstep : step s = .next t) :
    ∃ i, decode cmd = .ok i ∧ exec i { s with inputs := rest } = .next t := by
  cases hd : decode cmd with
  | ok i => exact ⟨i, rfl, step_command h hr hd ▸ hstep⟩
  | error e => simp [step, fetch_command h hr, hd] at hstep

end Sys2Proof.Machine
end

section
/-! PROOF. What an instruction reads and writes of the state (10_state.md R25, R29). -/

namespace Sys2Proof.Machine

/-- An instruction reads nothing but MODE: the mode it leaves and the response it gives are the same
in every state that holds `m`. -/
theorem exec_reads_only_mode (i : Instr) (m : Mode) :
    ∃ m' rsp, ∀ s : State, s.mode = m → exec i s = .next ((s.writeMode m').respond rsp) := by
  cases i with
  | decpa b0 b1 b2 =>
    exact ⟨m, decpa Config.altMostNeg m b0 b1 b2, fun s hs => by subst hs; exact exec_decpa ..⟩
  | dect b0 b1 => exact ⟨m, dect b0 b1, fun s hs => by subst hs; exact exec_dect ..⟩
  | setmode m' => exact ⟨m', 0#32, fun s _ => exec_setmode m' s⟩

/-- Only SETMODE changes MODE, and it leaves its operand there. -/
theorem exec_keeps_mode_or_setmode {i : Instr} {s t : State} (h : exec i s = .next t) :
    t.mode = s.mode ∨ i = .setmode t.mode := by
  cases i with
  | decpa b0 b1 b2 => rw [exec_decpa] at h; cases h; exact .inl rfl
  | dect b0 b1 => rw [exec_dect] at h; cases h; exact .inl rfl
  | setmode m => rw [exec_setmode] at h; cases h; exact .inr rfl

/-- A step that changes MODE ran the SETMODE of the new mode or took `rst` driven high. -/
theorem step_changes_mode {s t : State} (h : step s = .next t) (hm : t.mode ≠ s.mode) :
    (∃ rest, s.rst = false ∧ s.inputs = .command (encode (.setmode t.mode)) :: rest) ∨
    (∃ rest, s.inputs = .rst true :: rest) := by
  rcases step_next_cases h with ⟨_, rfl⟩ | ⟨b, rest, hi, rfl⟩ | ⟨_, _, _, _, rfl⟩ |
    ⟨cmd, rest, i, hi, hr, hd, hx⟩
  · exact absurd rfl hm
  · cases b with
    | true => exact .inr ⟨rest, hi⟩
    | false => exact absurd rfl hm
  · exact absurd rfl hm
  · rcases exec_keeps_mode_or_setmode hx with hkept | rfl
    · exact absurd hkept hm
    · exact .inl ⟨rest, hr, encode_of_decode hd ▸ hi⟩

/-- Settles O22: the ways a step can change MODE, and the two decoders' equations. -/
theorem modePersistsUntilSetmodeOrReset : Obligations.ModePersistsUntilSetmodeOrReset :=
  ⟨fun _ _ => step_changes_mode,
    fun b0 b1 b2 s => ⟨_, exec_decpa b0 b1 b2 s, rfl⟩,
    fun b0 b1 s m => ⟨_, exec_dect b0 b1 s, rfl, exec_dect b0 b1 { s with mode := m }⟩⟩

/-- Settles O23: both steps execute the same instruction, which reads nothing but MODE. -/
theorem onlyModeAndCommandMatter : Obligations.OnlyModeAndCommandMatter := by
  intro s s' t cmd rest rest' hr hr' hm hi hi' hstep
  obtain ⟨i, hd, hx⟩ := exec_of_step_command hi hr hstep
  obtain ⟨m, rsp, hexec⟩ := exec_reads_only_mode i s.mode
  rw [hexec { s with inputs := rest } rfl] at hx
  cases hx
  have hstep' : step s' = .next (({ s' with inputs := rest' }.writeMode m).respond rsp) := by
    rw [step_command hi' hr' hd, hexec { s' with inputs := rest' } hm.symm]
  exact ⟨rsp, _, hstep', rfl, rfl, rfl, rfl, rfl⟩

end Sys2Proof.Machine
end

section
/-! PROOF. Reset and waiting (10_state.md R27, 70_reset_and_hazards.md R120, R121). -/

namespace Sys2Proof.Machine

/-- Whichever value the free one is, it is one of the two modes. -/
theorem reset_eq_resetTo_barometer_or_altimeter :
    State.reset = State.resetTo .barometer ∨ State.reset = State.resetTo .altimeter := by
  unfold State.reset
  cases Config.modeReset 0 with
  | barometer => exact .inl rfl
  | altimeter => exact .inr rfl

/-- Settles O39: the steps with nothing presented and with `rst` driven to each level. -/
theorem resetLeavesOneOfTwoModesAndWaits : Obligations.ResetLeavesOneOfTwoModesAndWaits :=
  ⟨reset_eq_resetTo_barometer_or_altimeter,
    fun _ => ⟨rfl, step_nil rfl⟩,
    fun _ => step_nil,
    fun s _ hi => ⟨Config.modeReset s.resetDraws, step_rst hi⟩,
    fun _ _ hi => step_rst hi⟩

end Sys2Proof.Machine
end

section
/-! PROOF. The extractor's fields as slices of the register group (20_memory.md R34). -/

namespace Sys2Proof.Machine

/-- The 20-bit field is bits 23:4 of its group: left-justified, the low nibble left out. -/
theorem asm20_eq_slice (b0 b1 b2 : Byte) :
    asm20 b0 b1 b2 = (b0 ++ b1 ++ b2 : BitVec 24).extractLsb' 4 20 := by
  ext i hi
  -- Bit `i` is bit `i + 4` of the group: of `b2` below 4, of `b1` below 12, of `b0` above.
  simp only [asm20, BitVec.getElem_or, BitVec.getElem_shiftLeft, BitVec.getElem_setWidth,
    BitVec.getElem_extractLsb', BitVec.getLsbD_append, BitVec.getLsbD_ushiftRight]
  rcases lt_or_ge i 4 with h4 | h4
  · grind
  · rcases lt_or_ge i 12 with h12 | h12
    · grind
    · grind

/-- The 12-bit field is bits 15:4 of its group: left-justified, the low nibble left out. -/
theorem asm12_eq_slice (b0 b1 : Byte) :
    asm12 b0 b1 = (b0 ++ b1 : BitVec 16).extractLsb' 4 12 := by
  ext i hi
  -- Bit `i` is bit `i + 4` of the group: of `b1` below 4, of `b0` above.
  simp only [asm12, BitVec.getElem_or, BitVec.getElem_shiftLeft, BitVec.getElem_setWidth,
    BitVec.getElem_extractLsb', BitVec.getLsbD_append, BitVec.getLsbD_ushiftRight]
  rcases lt_or_ge i 4 with h4 | h4
  · grind
  · grind

/-- The 20-bit field as a number. -/
theorem asm20_toNat (b0 b1 b2 : Byte) :
    (asm20 b0 b1 b2).toNat = b0.toNat * 4096 + b1.toNat * 16 + b2.toNat / 16 := by
  rw [asm20_eq_slice, BitVec.extractLsb'_toNat, Nat.shiftRight_eq_div_pow]
  simp only [toNat_append_eq]; omega

/-- The 12-bit field as a number. -/
theorem asm12_toNat (b0 b1 : Byte) : (asm12 b0 b1).toNat = b0.toNat * 16 + b1.toNat / 16 := by
  rw [asm12_eq_slice, BitVec.extractLsb'_toNat, Nat.shiftRight_eq_div_pow]
  simp only [toNat_append_eq]; omega

/-- Of the last byte only the high nibble reaches the 20-bit field. -/
@[simp] theorem asm20_append (b0 b1 : Byte) (h n : BitVec 4) :
    asm20 b0 b1 (h ++ n) = b0 ++ b1 ++ h := by
  apply BitVec.eq_of_toNat_eq
  rw [asm20_toNat]; simp only [toNat_append_eq]; omega

/-- Of the last byte only the high nibble reaches the 12-bit field. -/
@[simp] theorem asm12_append (b0 : Byte) (h n : BitVec 4) : asm12 b0 (h ++ n) = b0 ++ h := by
  apply BitVec.eq_of_toNat_eq
  rw [asm12_toNat]; simp only [toNat_append_eq]; omega

theorem decpa_eq_of_asm20_eq {b0 b1 b2 c0 c1 c2 : Byte} (h : asm20 b0 b1 b2 = asm20 c0 c1 c2)
    (c : AltMostNeg) (m : Mode) : decpa c m b0 b1 b2 = decpa c m c0 c1 c2 := by
  cases m <;> simp only [decpa, h]

theorem dect_eq_of_asm12_eq {b0 b1 c0 c1 : Byte} (h : asm12 b0 b1 = asm12 c0 c1) :
    dect b0 b1 = dect c0 c1 := by
  rw [dect, dect, h]

/-- Settles O26: both decoders read the bytes through the assembled field only, which the ignored
nibble does not reach. -/
theorem ignoredNibbleReachesNoResponse : Obligations.IgnoredNibbleReachesNoResponse := by
  refine ⟨asm20_eq_slice, asm12_eq_slice, fun b0 b1 h n n' s => ?_, fun b0 h n n' s => ?_⟩
  · have hasm : asm20 b0 b1 (h ++ n) = asm20 b0 b1 (h ++ n') := by rw [asm20_append, asm20_append]
    rw [exec_decpa, exec_decpa, decpa_eq_of_asm20_eq hasm]
  · have hasm : asm12 b0 (h ++ n) = asm12 b0 (h ++ n') := by rw [asm12_append, asm12_append]
    rw [exec_dect, exec_dect, dect_eq_of_asm12_eq hasm]

end Sys2Proof.Machine
end

section
/-! PROOF. The decoder on encoded words. -/

namespace Sys2Proof

theorem slice_eq {w : Word} {lo len : Nat} {x : BitVec len}
    (h : w.toNat / 2 ^ lo % 2 ^ len = x.toNat) : w.extractLsb' lo len = x :=
  BitVec.eq_of_toNat_eq ((toNat_slice w lo len).trans h)

/-- The word of an instruction decodes to it. -/
theorem decode_encode (i : Instr) : decode (encode i) = .ok i := by
  simp only [decode, decpaMask_iff, dectMask_iff, setmodeMask_iff]
  cases i with
  | decpa b0 b1 b2 =>
    have hw := encode_decpa_toNat b0 b1 b2
    rw [if_pos (by omega), slice_eq (x := b0) (by omega), slice_eq (x := b1) (by omega),
      slice_eq (x := b2) (by omega)]
  | dect b0 b1 =>
    have hw := encode_dect_toNat b0 b1
    rw [if_neg (by omega), if_pos (by omega), slice_eq (x := b0) (by omega),
      slice_eq (x := b1) (by omega)]
  | setmode m =>
    have hw := encode_setmode_toNat m
    rw [if_neg (by omega), if_neg (by omega), if_pos (by omega),
      slice_eq (x := m.toBit) (by omega), ofBit_toBit]

end Sys2Proof
end

section
/-! PROOF. Frames, and a SETMODE followed by a decode (20_memory.md R36, R39). -/

namespace Sys2Proof.Machine
open Sys2Proof.Safety

/-- A presented instruction is the next one executed. -/
theorem step_encode {s : State} {i : Instr} {rest : List HostInput}
    (h : s.inputs = .command (encode i) :: rest) (hr : s.rst = false) :
    step s = exec i { s with inputs := rest } :=
  step_command h hr (decode_encode i)

theorem step_encode_setmode {s : State} {m : Mode} {rest : List HostInput}
    (h : s.inputs = .command (encode (.setmode m)) :: rest) (hr : s.rst = false) :
    step s = .next { s with mode := m, inputs := rest, responses := s.responses ++ [0#32] } :=
  (step_encode h hr).trans (exec_setmode ..)

theorem step_encode_decpa {s : State} {b0 b1 b2 : Byte} {rest : List HostInput}
    (h : s.inputs = .command (encode (.decpa b0 b1 b2)) :: rest) (hr : s.rst = false) :
    step s = .next { s with
      inputs := rest
      responses := s.responses ++ [decpa .twosComplement s.mode b0 b1 b2] } :=
  (step_encode h hr).trans (exec_decpa ..)

/-- Settles O24: an instruction writes MODE and adds one response, and only SETMODE changes MODE. -/
theorem instructionFrames : Obligations.InstructionFrames := by
  intro i s t h
  have hmode := exec_keeps_mode_or_setmode h
  obtain ⟨m, rsp, hexec⟩ := exec_reads_only_mode i s.mode
  rw [hexec s rfl] at h
  cases h
  exact ⟨rfl, rfl, rfl, List.prefix_append _ _, by simp,
    fun hne => hmode.resolve_right (hne _)⟩

/-- Settles O21: the second step executes the DECPA in the state SETMODE left. -/
theorem setmodeGovernsTheNextDecode : Obligations.SetmodeGovernsTheNextDecode := by
  intro m b0 b1 b2 s rest hr hi
  calc run 2 s
    _ = run 1 { s with
          mode := m, inputs := .command (encode (.decpa b0 b1 b2)) :: rest
          responses := s.responses ++ [0#32] } := run_succ_of_next (step_encode_setmode hi hr) 1
    _ = .next { s with
          mode := m, inputs := rest
          responses := s.responses ++ [0#32] ++ [decpa .twosComplement m b0 b1 b2] } :=
      run_succ_of_next (step_encode_decpa (s := ⟨m, _, _, _, _⟩) rfl hr) 0
    _ = _ := by rw [List.append_assoc, List.singleton_append]

end Sys2Proof.Machine
end

section
/-! PROOF. The machine against the spec's step function, one command and then any number
(60_exceptions.md R113). -/

namespace Sys2Proof.Machine
open Sys2Proof.Safety

/-- The field assembled from a `DECPA` word's bytes is the slice `cmd[23:4]`. -/
theorem asm20_slices (w : Word) :
    asm20 (w.extractLsb' 16 8) (w.extractLsb' 8 8) (w.extractLsb' 0 8) = w.extractLsb' 4 20 := by
  apply BitVec.eq_of_toNat_eq
  rw [asm20_toNat]; simp only [toNat_slice]; omega

/-- The field assembled from a `DECT` word's bytes is the slice `cmd[15:4]`. -/
theorem asm12_slices (w : Word) :
    asm12 (w.extractLsb' 8 8) (w.extractLsb' 0 8) = w.extractLsb' 4 12 := by
  apply BitVec.eq_of_toNat_eq
  rw [asm12_toNat]; simp only [toNat_slice]; omega

/-- The spec's step function on a word of each pattern (30_encoding.md R57). -/
theorem specStep_decpa_word {w : Word} (hw : w.toNat / 2 ^ 24 = 0x10) (m : Mode) :
    specStep m w = some (m, decpa .twosComplement m
      (w.extractLsb' 16 8) (w.extractLsb' 8 8) (w.extractLsb' 0 8)) := by
  rw [specStep, if_pos ((decpaMask_iff w).mpr hw)]
  cases m <;> simp [decpa, asm20_slices, sext_eq_toInt]

theorem specStep_dect_word {w : Word} (hw : w.toNat / 2 ^ 16 = 0x2000) (m : Mode) :
    specStep m w = some (m, dect (w.extractLsb' 8 8) (w.extractLsb' 0 8)) := by
  rw [specStep, if_neg (by rw [decpaMask_iff]; omega), if_pos ((dectMask_iff w).mpr hw), dect,
    asm12_slices, sext_eq_toInt]

theorem specStep_setmode_word {w : Word} (hw : w.toNat / 2 ^ 1 = 0x18000000) (m : Mode) :
    specStep m w = some (Mode.ofBit (w.extractLsb' 0 1), 0#32) := by
  have hbit : w.getLsbD 0 = true ↔ w.extractLsb' 0 1 = 1#1 := by
    rw [← BitVec.toNat_inj, toNat_slice, BitVec.getLsbD, Nat.testBit_zero]; simp
  rw [specStep, if_neg (by rw [decpaMask_iff]; omega), if_neg (by rw [dectMask_iff]; omega),
    if_pos ((setmodeMask_iff w).mpr hw)]
  simp only [hbit, Mode.ofBit]

/-- On a word that decodes, the instruction leaves the mode and gives the response of the spec's
step function. -/
theorem exec_decoded_eq_specStep {w : Word} {i : Instr} (h : decode w = .ok i) (s : State) :
    ∃ m rsp, specStep s.mode w = some (m, rsp) ∧
      exec i s = .next ((s.writeMode m).respond rsp) := by
  rcases decode_ok_cases h with ⟨hw, rfl⟩ | ⟨hw, rfl⟩ | ⟨hw, rfl⟩
  · exact ⟨_, _, specStep_decpa_word hw s.mode, exec_decpa ..⟩
  · exact ⟨_, _, specStep_dect_word hw s.mode, exec_dect ..⟩
  · exact ⟨_, _, specStep_setmode_word hw s.mode, exec_setmode ..⟩

/-- The spec's step function has no meaning for a word that does not decode. -/
theorem specStep_reserved {w : Word} {e : Reserved} (h : decode w = .error e) (m : Mode) :
    specStep m w = none := by
  rw [decode] at h
  split_ifs at h with hp ht hm
  rw [specStep, if_neg hp, if_neg ht, if_neg hm]

/-- A reserved word presented with `rst` released is refused (R104). -/
theorem step_reserved {s : State} {cmd : Word} {rest : List HostInput} {e : Reserved}
    (h : s.inputs = .command cmd :: rest) (hr : s.rst = false) (hd : decode cmd = .error e) :
    step s = .refused .reservedCommand := by
  simp only [step, fetch_command h hr, hd]

/-- One step on a presented command, by the spec's step function. -/
theorem step_command_cases {s : State} {cmd : Word} {rest : List HostInput}
    (hr : s.rst = false) (hi : s.inputs = .command cmd :: rest) :
    (∃ m rsp, specStep s.mode cmd = some (m, rsp) ∧
      step s = .next (({ s with inputs := rest }.writeMode m).respond rsp)) ∨
    (specStep s.mode cmd = none ∧ step s = .refused .reservedCommand) := by
  cases hd : decode cmd with
  | ok i =>
    obtain ⟨m, rsp, hspec, hexec⟩ := exec_decoded_eq_specStep hd { s with inputs := rest }
    exact .inl ⟨m, rsp, hspec, (step_command hi hr hd).trans hexec⟩
  | error e => exact .inr ⟨specStep_reserved hd s.mode, step_reserved hi hr hd⟩

/-- Settles O7, by induction on the commands: the run of the rest starts in the mode the first
command left. -/
theorem runAnswersEveryCommandInOrder : Obligations.RunAnswersEveryCommandInOrder := by
  intro cmds
  induction cmds with
  | nil =>
    intro s hr hi
    simp [specRun, ← show s.inputs = [] from hi]
  | cons cmd cmds ih =>
    intro s hr hi
    rcases step_command_cases hr hi with ⟨m, rsp, hspec, hstep⟩ | ⟨hspec, hstep⟩
    · have hrest := ih (({ s with inputs := cmds.map .command }.writeMode m).respond rsp) hr rfl
      rw [List.length_cons, run_succ_of_next hstep, hrest, specRun, hspec]
      cases hspecs : specRun m cmds with
      | none => simp [hspecs]
      | some r => simp [hspecs, State.respond, State.writeMode]
    · rw [List.length_cons, run_succ_of_refused hstep, specRun, hspec]

end Sys2Proof.Machine
end

section
/-! PROOF. Decoder and encoder as inverses, the opcode map of 30_encoding.md R57, and the number of
words of each instruction. -/

namespace Sys2Proof

/-- Settles O1: by instruction, the tests of the decoder and its slices on the encoded number. -/
theorem decodeOfEncode : Obligations.DecodeOfEncode := decode_encode

/-- Settles O2: by the pattern a decoded word matched, its slices put together again. -/
theorem encodeOfDecode : Obligations.EncodeOfDecode := fun _ _ => encode_of_decode

/-- The words of an instruction are one word, the encoded one. -/
theorem decode_eq_ok_iff {w : Word} {i : Instr} : decode w = .ok i ↔ encode i = w :=
  ⟨encode_of_decode, fun h => h ▸ decode_encode i⟩

theorem encode_injective : Function.Injective encode := fun i j h => by
  simpa [decode_encode] using congrArg decode h

/-- The mode of a `SETMODE` word, read as its bit 0. -/
theorem ofBit_slice (w : Word) :
    Mode.ofBit (w.extractLsb' 0 1) = if w.getLsbD 0 then .altimeter else .barometer := by
  have hbit : w.extractLsb' 0 1 = 1#1 ↔ w.getLsbD 0 = true := by
    rw [← BitVec.toNat_inj, toNat_slice, BitVec.getLsbD, Nat.testBit_zero]; simp
  simp only [Mode.ofBit, hbit]

/-- What a word of each pattern decodes to. The patterns exclude each other, so the order of the
decoder's tests does not matter. -/
theorem decode_of_decpa_pattern {w : Word} (h : w &&& 0xFF000000#32 = 0x10000000#32) :
    decode w = .ok (.decpa (w.extractLsb' 16 8) (w.extractLsb' 8 8) (w.extractLsb' 0 8)) :=
  if_pos h

theorem decode_of_dect_pattern {w : Word} (h : w &&& 0xFFFF0000#32 = 0x20000000#32) :
    decode w = .ok (.dect (w.extractLsb' 8 8) (w.extractLsb' 0 8)) := by
  have hw := (dectMask_iff w).mp h
  rw [decode, if_neg (by rw [decpaMask_iff]; omega), if_pos h]

theorem decode_of_setmode_pattern {w : Word} (h : w &&& 0xFFFFFFFE#32 = 0x30000000#32) :
    decode w = .ok (.setmode (Mode.ofBit (w.extractLsb' 0 1))) := by
  have hw := (setmodeMask_iff w).mp h
  rw [decode, if_neg (by rw [decpaMask_iff]; omega), if_neg (by rw [dectMask_iff]; omega),
    if_pos h]

/-- A word is rejected exactly if it matches no pattern. -/
theorem decode_error_iff (w : Word) :
    (∃ e, decode w = .error e) ↔
      ¬ w &&& 0xFF000000#32 = 0x10000000#32 ∧ ¬ w &&& 0xFFFF0000#32 = 0x20000000#32 ∧
        ¬ w &&& 0xFFFFFFFE#32 = 0x30000000#32 := by
  constructor
  · rintro ⟨e, he⟩
    refine ⟨fun h => ?_, fun h => ?_, fun h => ?_⟩
    · simp [decode_of_decpa_pattern h] at he
    · simp [decode_of_dect_pattern h] at he
    · simp [decode_of_setmode_pattern h] at he
  · rintro ⟨hp, ht, hm⟩
    exact ⟨reservedClass w, by rw [decode, if_neg hp, if_neg ht, if_neg hm]⟩

/-- The list of reserved words in R57, by fields, names the words that match no pattern. -/
theorem decode_error_iff_fields (w : Word) :
    (∃ e, decode w = .error e) ↔
      (w.extractLsb' 28 4 = 0#4 ∨ 4 ≤ (w.extractLsb' 28 4).toNat) ∨
      (w.extractLsb' 28 4 = 1#4 ∧ w.extractLsb' 24 4 ≠ 0#4) ∨
      (w.extractLsb' 28 4 = 2#4 ∧ w.extractLsb' 16 12 ≠ 0#12) ∨
      (w.extractLsb' 28 4 = 3#4 ∧ w.extractLsb' 1 27 ≠ 0#27) := by
  -- Patterns and fields are both quotients of the word's number, so this is arithmetic.
  rw [decode_error_iff, decpaMask_iff, dectMask_iff, setmodeMask_iff]
  simp only [ne_eq, ← BitVec.toNat_inj, toNat_slice, BitVec.toNat_ofNat]
  omega

/-- Instructions given one for one by operands have as many words as there are operands. -/
theorem ncard_words_of_operands {α : Type} {f : α → Instr} (hf : Function.Injective f) :
    Set.ncard {w : Word | ∃ a, decode w = .ok (f a)} = Nat.card α := by
  have hrange : {w : Word | ∃ a, decode w = .ok (f a)} = Set.range (encode ∘ f) :=
    Set.ext fun w => by simp [decode_eq_ok_iff]
  rw [hrange, Set.ncard_range_of_injective (encode_injective.comp hf)]

@[simp] theorem natCard_bitVec (n : Nat) : Nat.card (BitVec n) = 2 ^ n := by
  rw [Nat.card_congr BitVec.equivFin.toEquiv, Nat.card_fin]

theorem natCard_mode : Nat.card Mode = 2 := by
  rw [Nat.card_congr ⟨Mode.toBit, Mode.ofBit, ofBit_toBit, toBit_ofBit⟩, natCard_bitVec, pow_one]

theorem ncard_decpa_words :
    Set.ncard {w : Word | ∃ b0 b1 b2, decode w = .ok (.decpa b0 b1 b2)} = 2 ^ 24 := by
  have hinj : Function.Injective fun b : Byte × Byte × Byte => Instr.decpa b.1 b.2.1 b.2.2 :=
    fun _ _ h => by simpa [Prod.ext_iff] using h
  have hcard := ncard_words_of_operands hinj
  simp only [Prod.exists] at hcard
  rw [hcard, Nat.card_prod, Nat.card_prod, natCard_bitVec, ← pow_add, ← pow_add]

theorem ncard_dect_words :
    Set.ncard {w : Word | ∃ b0 b1, decode w = .ok (.dect b0 b1)} = 2 ^ 16 := by
  have hinj : Function.Injective fun b : Byte × Byte => Instr.dect b.1 b.2 :=
    fun _ _ h => by simpa [Prod.ext_iff] using h
  have hcard := ncard_words_of_operands hinj
  simp only [Prod.exists] at hcard
  rw [hcard, Nat.card_prod, natCard_bitVec, ← pow_add]

theorem ncard_setmode_words :
    Set.ncard {w : Word | ∃ m, decode w = .ok (.setmode m)} = 2 :=
  (ncard_words_of_operands fun _ _ => Instr.setmode.inj).trans natCard_mode

/-- Settles O3: what each pattern decodes to, the reserved words both ways, and the counts. -/
theorem decodingFollowsTheOpcodeMap : Obligations.DecodingFollowsTheOpcodeMap :=
  ⟨fun w => ⟨decode_of_decpa_pattern, decode_of_dect_pattern,
      fun h => ofBit_slice w ▸ decode_of_setmode_pattern h,
      decode_error_iff w, decode_error_iff_fields w⟩,
    ncard_decpa_words, ncard_dect_words, ncard_setmode_words⟩

/-- Settles O4: the legal words are words of their instructions, the reserved ones are computed. -/
theorem opcodeTableWordsDecode : Obligations.OpcodeTableWordsDecode :=
  ⟨decode_encode (.decpa 0x62#8 0xF5#8 0xC0#8), decode_encode (.decpa 0xFF#8 0xFF#8 0xFF#8),
    decode_encode (.dect 0x19#8 0x80#8), decode_encode (.setmode .barometer),
    decode_encode (.setmode .altimeter), by decide, by decide, by decide, by decide, by decide⟩

end Sys2Proof
end

section
/-! PROOF. The layout of the raw fields: disjoint terms, packing and assembling (30_encoding.md R46,
R47, R49, 95_test_vectors.md section 5.1). -/

namespace Sys2Proof.Machine

/-- A term shifted left by `k` and one below `2^k` share no bit. -/
theorem shiftLeft_and_eq_zero {n k : Nat} (x y : BitVec n) (hy : y.toNat < 2 ^ k) :
    (x <<< k) &&& y = 0#n := by
  ext i hi
  rcases lt_or_ge i k with hik | hik
  · simp [hik]
  · have hbit : y[i] = false := by
      rw [← BitVec.getLsbD_eq_getElem]
      exact Nat.testBit_lt_two_pow (hy.trans_le (Nat.pow_le_pow_right (by omega) hik))
    simp [hbit]

/-- The terms of the 20-bit field below the first byte, as numbers. -/
theorem toNat_byte_shiftLeft4 (b : Byte) : (b.setWidth 20 <<< 4).toNat = b.toNat * 16 := by
  simp only [BitVec.toNat_shiftLeft, BitVec.toNat_setWidth, Nat.shiftLeft_eq]; omega

theorem toNat_byte_high_nibble (b : Byte) : ((b >>> 4).setWidth 20).toNat = b.toNat / 16 := by
  simp only [BitVec.toNat_setWidth, BitVec.toNat_ushiftRight, Nat.shiftRight_eq_div_pow]; omega

/-- Settles O25: the three terms share no bit, so their `or` is their sum. -/
theorem rawValueIsTheSumOfItsBytes : Obligations.RawValueIsTheSumOfItsBytes := by
  intro b0 b1 b2
  have h01 : (b0.setWidth 20 <<< 12) &&& (b1.setWidth 20 <<< 4) = 0#20 :=
    shiftLeft_and_eq_zero _ _ (by rw [toNat_byte_shiftLeft4]; omega)
  have h02 : (b0.setWidth 20 <<< 12) &&& (b2 >>> 4).setWidth 20 = 0#20 :=
    shiftLeft_and_eq_zero _ _ (by rw [toNat_byte_high_nibble]; omega)
  have h12 : (b1.setWidth 20 <<< 4) &&& (b2 >>> 4).setWidth 20 = 0#20 :=
    shiftLeft_and_eq_zero _ _ (by rw [toNat_byte_high_nibble]; omega)
  refine ⟨asm20_toNat b0 b1 b2, by omega, ?_, h01, h02, h12⟩
  rw [asm20, BitVec.add_eq_or_of_and_eq_zero _ _ h01, BitVec.add_eq_or_of_and_eq_zero]
  rw [BitVec.and_or_distrib_right, h02, h12, BitVec.or_zero]

/-- A bit vector is the concatenation of its two slices, at every cut. -/
theorem append_slices {m n : Nat} (v : BitVec (m + n)) :
    v.extractLsb' n m ++ v.extractLsb' 0 n = v :=
  (BitVec.extractLsb'_append_extractLsb'_eq_extractLsb' (Nat.zero_add n).symm).trans
    BitVec.extractLsb'_eq_self

theorem asm20_pack (v : BitVec 20) (n : BitVec 4) :
    asm20 (v.extractLsb' 12 8) (v.extractLsb' 4 8) (v.extractLsb' 0 4 ++ n) = v := by
  have hhigh : v.extractLsb' 12 8 ++ v.extractLsb' 4 8 = v.extractLsb' 4 16 :=
    BitVec.extractLsb'_append_extractLsb'_eq_extractLsb' rfl
  rw [asm20_append, hhigh]
  exact append_slices (m := 16) (n := 4) v

theorem asm12_pack (t : BitVec 12) (n : BitVec 4) :
    asm12 (t.extractLsb' 4 8) (t.extractLsb' 0 4 ++ n) = t :=
  (asm12_append _ _ n).trans (append_slices (m := 8) (n := 4) t)

theorem append_high_nibble_eq_asm20 (b0 b1 b2 : Byte) :
    b0 ++ b1 ++ b2.extractLsb' 4 4 = asm20 b0 b1 b2 :=
  calc b0 ++ b1 ++ b2.extractLsb' 4 4
    _ = asm20 b0 b1 (b2.extractLsb' 4 4 ++ b2.extractLsb' 0 4) := (asm20_append ..).symm
    _ = asm20 b0 b1 b2 := congrArg (asm20 b0 b1) (append_slices (m := 4) (n := 4) b2)

theorem append_high_nibble_eq_asm12 (b0 b1 : Byte) :
    b0 ++ b1.extractLsb' 4 4 = asm12 b0 b1 :=
  calc b0 ++ b1.extractLsb' 4 4
    _ = asm12 b0 (b1.extractLsb' 4 4 ++ b1.extractLsb' 0 4) := (asm12_append ..).symm
    _ = asm12 b0 b1 := congrArg (asm12 b0) (append_slices (m := 4) (n := 4) b1)

/-- Settles O27: the assembled field is the concatenation of its parts, the ignored nibble left
out. -/
theorem layoutRoundTrip : Obligations.LayoutRoundTrip :=
  ⟨asm20_pack, asm12_pack, append_high_nibble_eq_asm20, append_high_nibble_eq_asm12⟩

end Sys2Proof.Machine
end

section
/-! PROOF. Sixteenth-unit unpacking is exact (42_fix2float.md R77), and so the temperature is
(30_encoding.md R50). -/

namespace Sys2Proof.Machine

/-- Sign and magnitude of an integer, the sign as R77 takes it. -/
theorem neg_one_pow_sign_mul_natAbs (n : Int) :
    (-1 : Rat) ^ (if n < 0 then 1 else 0) * (n.natAbs : Rat) = n := by
  rw [Nat.cast_natAbs, Int.cast_abs]
  split
  case isTrue h => rw [abs_of_neg (by exact_mod_cast h)]; ring
  case isFalse h => rw [abs_of_nonneg (by exact_mod_cast not_lt.mp h)]; ring

/-- The word of sixteenth-unit unpacking has exactly the value `n / 16`: its significand is `|n|`
shifted left by `23 - k`, its exponent `123 + k`, and the shifts add up to `2^146`. -/
theorem f32Val_f32Sixteenths {n : Int} (h24 : n.natAbs < 2 ^ 24) :
    f32Val (f32Sixteenths n) = some ((n : Rat) / 16) := by
  by_cases hn : n = 0
  · simp [hn]
  have hm : n.natAbs ≠ 0 := by omega
  obtain ⟨hfrac, hlo, hhi⟩ := sixteenths_frac hm h24
  have hk : n.natAbs.log2 < 24 := (Nat.log2_lt hm).mpr h24
  have hshift : n.natAbs * 2 ^ (23 - n.natAbs.log2) * 2 ^ (127 + n.natAbs.log2 - 4) =
      n.natAbs * 2 ^ 146 := by
    rw [Nat.mul_assoc, ← pow_add]; congr 2; omega
  rw [f32Sixteenths, if_neg hn]
  dsimp only
  rw [hfrac, f32Val_packF32 (by split <;> omega) (by omega) (by omega), Nat.add_sub_cancel' hlo,
    hshift, Nat.cast_mul, ← mul_assoc, neg_one_pow_sign_mul_natAbs]
  congr 1
  push_cast
  ring

/-- The response of DECT has exactly the value `sext_12(t) / 16` (R50). -/
theorem f32Val_dect (b0 b1 : Byte) : f32Val (dect b0 b1) = some ((sext (asm12 b0 b1) : Rat) / 16) :=
  f32Val_f32Sixteenths (by have := sext12_bounds (asm12 b0 b1); omega)

theorem temperatureValue_bounds (t : BitVec 12) :
    -128 ≤ temperatureValue t ∧ temperatureValue t ≤ 1279375 / 10000 := by
  obtain ⟨hlo, hhi⟩ := sext12_bounds t
  have hlo' : (-2048 : Rat) ≤ sext t := by exact_mod_cast hlo
  have hhi' : (sext t : Rat) ≤ 2047 := by exact_mod_cast hhi
  rw [temperatureValue]
  constructor <;> linarith

/-- Sign extension of the assembled temperature, by the comparison with `0x7FF`. -/
theorem sext_asm12 (b0 b1 : Byte) :
    sext (asm12 b0 b1) =
      if b0.toNat * 16 + b1.toNat / 16 ≤ 0x7FF then ((b0.toNat * 16 + b1.toNat / 16 : Nat) : Int)
      else ((b0.toNat * 16 + b1.toNat / 16 : Nat) : Int) - 0x1000 := by
  rw [sext_eq_ite, asm12_toNat]
  exact if_congr (by omega) rfl rfl

/-- Settles O17: DECT answers the converter's exact word for the sign-extended field. -/
theorem dectAnswersTheExactTemperature : Obligations.DectAnswersTheExactTemperature := by
  intro b0 b1 s
  obtain ⟨hlo, hhi⟩ := temperatureValue_bounds (asm12 b0 b1)
  exact ⟨asm12_toNat b0 b1, dect b0 b1, temperatureValue (asm12 b0 b1), exec_dect b0 b1 s,
    f32Val_dect b0 b1, hlo, hhi, by rw [temperatureValue, sext_asm12]⟩

end Sys2Proof.Machine
end

section
/-! PROOF. DECPA's answer under the mode held; in Altimeter mode the exact altitude and the
parameter `ALT_MOSTNEG` (40_decode_pa.md R60, R63, R64). -/

namespace Sys2Proof.Machine

/-- Sign extension of the assembled raw value, by the comparison with `0x7FFFF`. -/
theorem sext_asm20 (b0 b1 b2 : Byte) :
    sext (asm20 b0 b1 b2) =
      if b0.toNat * 4096 + b1.toNat * 16 + b2.toNat / 16 ≤ 0x7FFFF
      then ((b0.toNat * 4096 + b1.toNat * 16 + b2.toNat / 16 : Nat) : Int)
      else ((b0.toNat * 4096 + b1.toNat * 16 + b2.toNat / 16 : Nat) : Int) - 0x100000 := by
  rw [sext_eq_ite, asm20_toNat]
  exact if_congr (by omega) rfl rfl

/-- Sign-extended fields are in the domain of sixteenth-unit unpacking. -/
theorem sext20_natAbs_lt (v : BitVec 20) : (sext v).natAbs < 2 ^ 24 := by
  have := sext20_bounds v; omega

theorem sext12_natAbs_lt (t : BitVec 12) : (sext t).natAbs < 2 ^ 24 := by
  have := sext12_bounds t; omega

/-- The Altimeter word of a raw value has exactly the altitude `sext_20(v) / 16` (R63). -/
theorem f32Val_f32Sixteenths_sext20 (v : BitVec 20) :
    f32Val (f32Sixteenths (sext v)) = some (altimeterValue v) :=
  f32Val_f32Sixteenths (sext20_natAbs_lt v)

@[simp] theorem decpa_altimeter (b0 b1 b2 : Byte) :
    decpa .twosComplement .altimeter b0 b1 b2 = f32Sixteenths (sext (asm20 b0 b1 b2)) := rfl

@[simp] theorem decpa_barometer (c : AltMostNeg) (b0 b1 b2 : Byte) :
    decpa c .barometer b0 b1 b2 = f32Div4000 (asm20 b0 b1 b2) := rfl

/-- DECPA adds the pure function's word for the mode held, and changes nothing else. -/
theorem exec_decpa_of_mode {s : State} {m : Mode} {b0 b1 b2 : Byte} {w : Word} (hm : s.mode = m)
    (hw : decpa .twosComplement m b0 b1 b2 = w) :
    exec (.decpa b0 b1 b2) s = .next { s with responses := s.responses ++ [w] } := by
  subst hm hw
  exact exec_decpa b0 b1 b2 s

/-- Settles O12: DECPA answers the converter's exact word for the sign-extended field. -/
theorem decpaAltimeterAnswersTheExactAltitude :
    Obligations.DecpaAltimeterAnswersTheExactAltitude := by
  intro b0 b1 b2 s hs
  refine ⟨_, exec_decpa_of_mode hs (decpa_altimeter b0 b1 b2), ?_⟩
  rw [f32Val_f32Sixteenths_sext20, altimeterValue, sext_asm20]

/-- The bytes that assemble to the one pattern of R64. -/
theorem asm20_eq_mostNeg_iff (b0 b1 b2 : Byte) :
    asm20 b0 b1 b2 = 0x80000#20 ↔ b0 = 0x80#8 ∧ b1 = 0x00#8 ∧ b2.toNat < 16 := by
  simp only [← BitVec.toNat_inj, asm20_toNat, BitVec.toNat_ofNat]
  omega

theorem altimeterInt_positiveZero_mostNeg : altimeterInt .positiveZero 0x80000#20 = 0 := rfl

/-- Away from the one pattern the parameter is not read. -/
theorem altimeterInt_positiveZero_of_ne {v : BitVec 20} (h : v ≠ 0x80000#20) :
    altimeterInt .positiveZero v = sext v := if_neg h

theorem sext20_mostNeg : sext 0x80000#20 = -524288 := by decide

/-- The machine's word for the most negative raw value (R64). -/
theorem f32Sixteenths_mostNeg : f32Sixteenths (-524288) = 0xC7000000#32 := by decide

/-- Settles O13: the bytes of `0x80000` are the only ones at which the parameter is read. -/
theorem altMostNegConcernsOneResponse : Obligations.AltMostNegConcernsOneResponse := by
  refine ⟨fun b2 s hs hb2 => ?_, ?_, fun mode b0 b1 b2 hne => ?_⟩
  · have hasm : asm20 0x80#8 0x00#8 b2 = 0x80000#20 :=
      (asm20_eq_mostNeg_iff ..).mpr ⟨rfl, rfl, hb2⟩
    refine ⟨exec_decpa_of_mode hs ?_, ?_⟩
    · rw [decpa_altimeter, hasm, sext20_mostNeg, f32Sixteenths_mostNeg]
    · rw [decpa, hasm, altimeterInt_positiveZero_mostNeg, f32Sixteenths_zero]
  · rw [← f32Sixteenths_mostNeg, f32Val_f32Sixteenths (by decide)]
    norm_num
  · cases mode with
    | barometer => rfl
    | altimeter =>
      have hasm : asm20 b0 b1 b2 ≠ 0x80000#20 :=
        fun h => hne ⟨rfl, (asm20_eq_mostNeg_iff ..).mp h⟩
      rw [decpa, altimeterInt_positiveZero_of_ne hasm, decpa_altimeter]

end Sys2Proof.Machine
end

section
/-! PROOF. The source's printed sign formula against sign extension (40_decode_pa.md R69,
41_decode_t.md R72), at any width. -/

namespace Sys2Proof.Machine

/-- The printed formula's magnitude: complement, add one, mask off the bits from `k` up. -/
theorem toNat_neg_and_low_mask {n : Nat} (v : BitVec n) (k : Nat) (hk : k ≤ n) :
    ((~~~v + 1#n) &&& BitVec.ofNat n (2 ^ k - 1)).toNat = (2 ^ n - v.toNat) % 2 ^ k := by
  have hmask : 2 ^ k - 1 < 2 ^ n := by
    have := Nat.pow_le_pow_right (n := 2) (by omega) hk
    have := Nat.two_pow_pos k
    omega
  rw [← BitVec.neg_eq_not_add, BitVec.toNat_and, BitVec.toNat_neg, BitVec.toNat_ofNat,
    Nat.mod_eq_of_lt hmask, Nat.and_two_pow_sub_one_eq_mod,
    Nat.mod_mod_of_dvd _ (Nat.pow_dvd_pow 2 hk)]

/-- Off the most negative pattern the mask takes nothing from a negative field's magnitude, so
the formula is sign extension. -/
theorem sourceFormula20_eq_sext {v : BitVec 20} (h : v ≠ 0x80000#20) :
    sourceFormula20 v = sext v := by
  have hv : v.toNat ≠ 0x80000 := fun e => h (BitVec.eq_of_toNat_eq e)
  have hmag : ((~~~v + 1#20) &&& 0x7FFFF#20).toNat = (2 ^ 20 - v.toNat) % 2 ^ 19 :=
    toNat_neg_and_low_mask v 19 (by omega)
  rw [sourceFormula20, sext_eq_ite, hmag]
  split <;> split <;> omega

theorem sourceFormula12_eq_sext {t : BitVec 12} (h : t ≠ 0x800#12) :
    sourceFormula12 t = sext t := by
  have ht : t.toNat ≠ 0x800 := fun e => h (BitVec.eq_of_toNat_eq e)
  have hmag : ((~~~t + 1#12) &&& 0x7FF#12).toNat = (2 ^ 12 - t.toNat) % 2 ^ 11 :=
    toNat_neg_and_low_mask t 11 (by omega)
  rw [sourceFormula12, sext_eq_ite, hmag]
  split <;> split <;> omega

theorem gt_0x7FFFF_iff_bit19 (v : BitVec 20) : v.toNat > 0x7FFFF ↔ v.getLsbD 19 = true := by
  rw [← BitVec.msb_eq_getLsbD_last v, BitVec.msb_eq_decide, decide_eq_true_iff]
  omega

theorem sext20_of_gt {v : BitVec 20} (h : v.toNat > 0x7FFFF) :
    sext v = (v.toNat : Int) - 0x100000 := by
  rw [sext_eq_ite, if_neg (by omega)]
  rfl

/-- Settles O28: the formula at any pattern but one by arithmetic, at the one by computing. -/
theorem printedFormulaFailsAtOnePattern : Obligations.PrintedFormulaFailsAtOnePattern :=
  ⟨fun v => ⟨gt_0x7FFFF_iff_bit19 v, sourceFormula20_eq_sext, sext20_of_gt,
      altimeterInt_twosComplement v⟩,
    by decide, sext20_mostNeg, fun _ => sourceFormula12_eq_sext, by decide, by decide⟩

end Sys2Proof.Machine
end

section
/-! PROOF. Corner words of DECPA (40_decode_pa.md R65, R66). -/

namespace Sys2Proof.Machine

/-- Settles O14: each word is the converter's for the raw value named. -/
theorem decpaCornerWords : Obligations.DecpaCornerWords := by
  refine ⟨fun s hs => ?_, fun s hs => ?_, ?_⟩
  · exact ⟨exec_decpa_of_mode hs (by decide), exec_decpa_of_mode hs (by decide),
      exec_decpa_of_mode hs (by decide), exec_decpa_of_mode hs (by decide),
      exec_decpa_of_mode hs (by decide)⟩
  · exact ⟨exec_decpa_of_mode hs (by decide), exec_decpa_of_mode hs (by decide),
      exec_decpa_of_mode hs (by decide)⟩
  · have hsext : sext 0x7FFFF#20 = 524287 := by decide
    rw [altimeterValue, hsext]
    norm_num

end Sys2Proof.Machine
end

section
/-! PROOF. Binary32 words as multiples of a spacing, and which word is nearest to a number
(42_fix2float.md R75, R80). -/

namespace Sys2Proof.Machine
open Sys2Proof.Safety

/-- The distance between neighbouring words of biased exponent `e`, and the value of a word's last
fraction bit. -/
def f32Ulp (e : Nat) : Rat := (2 ^ e : Nat) / (2 ^ 150 : Nat)

theorem f32Ulp_pos (e : Nat) : 0 < f32Ulp e := by unfold f32Ulp; positivity

theorem f32Ulp_add (e d : Nat) : f32Ulp (e + d) = (2 ^ d : Nat) * f32Ulp e := by
  rw [f32Ulp, f32Ulp, pow_add]; push_cast; ring

theorem f32Sign_lt (w : Word) : f32Sign w < 2 := (w.extractLsb' 31 1).isLt
theorem f32Exp_lt (w : Word) : f32Exp w < 256 := (w.extractLsb' 23 8).isLt
theorem f32Frac_lt (w : Word) : f32Frac w < 2 ^ 23 := (w.extractLsb' 0 23).isLt

/-- A word is its three fields packed. -/
theorem packF32_fields (w : Word) : packF32 (f32Sign w) (f32Exp w) (f32Frac w) = w := by
  apply BitVec.eq_of_toNat_eq
  rw [packF32_toNat (f32Sign_lt w) (f32Exp_lt w) (f32Frac_lt w)]
  simp only [f32Sign, f32Exp, f32Frac, toNat_slice]
  omega

/-- A positive normal word of significand `m` is `m` spacings. -/
theorem f32Val_packF32_significand {e m : Nat} (he : 1 ≤ e ∧ e ≤ 254) (hlo : 2 ^ 23 ≤ m)
    (hhi : m < 2 ^ 24) : f32Val (packF32 0 e (m - 2 ^ 23)) = some (m * f32Ulp e) := by
  rw [f32Val_packF32 (by omega) he (by omega), Nat.add_sub_cancel' hlo, f32Ulp]
  congr 1
  push_cast
  ring

/-- The words that have a value: `+0`, and the normal words, each a signed significand times the
spacing of its exponent. -/
theorem f32Val_cases {w : Word} {y : Rat} (h : f32Val w = some y) :
    (w = 0#32 ∧ y = 0) ∨
    (1 ≤ f32Exp w ∧ f32Exp w ≤ 254 ∧
      y = (-1) ^ f32Sign w * ((2 ^ 23 + f32Frac w : Nat) * f32Ulp (f32Exp w))) := by
  rw [f32Val] at h
  split_ifs at h with hw he
  · exact .inl ⟨hw, (Option.some.inj h).symm⟩
  · refine .inr ⟨he.1, he.2, (Option.some.inj h).symm.trans ?_⟩
    rw [f32Ulp]
    push_cast
    ring

/-- Only `+0` has the value zero. -/
theorem f32Val_ne_zero {w : Word} {y : Rat} (h : f32Val w = some y) (hw : w ≠ 0#32) : y ≠ 0 := by
  rcases f32Val_cases h with ⟨h0, _⟩ | ⟨_, _, rfl⟩
  · exact absurd h0 hw
  · have := f32Ulp_pos (f32Exp w)
    positivity

/-- Seen from the words of biased exponent `e`, every other word is a whole number of their spacings
(its exponent is as large) or lies at least half a spacing below all of them. -/
theorem f32Val_multiple_or_below {e m : Nat} (hlo : 2 ^ 23 ≤ m) (hhi : m < 2 ^ 24)
    {w : Word} {y : Rat} (h : f32Val w = some y) (hne : w ≠ packF32 0 e (m - 2 ^ 23)) :
    (∃ n : Nat, n ≠ m ∧ y = n * f32Ulp e) ∨ y ≤ (2 ^ 23 - 1 / 2) * f32Ulp e := by
  have hu := f32Ulp_pos e
  rcases f32Val_cases h with ⟨_, rfl⟩ | ⟨_, _, hy⟩
  · exact .inr (by positivity)
  have hF := f32Frac_lt w
  have hu' := f32Ulp_pos (f32Exp w)
  obtain hs | hs : f32Sign w = 0 ∨ f32Sign w = 1 := by have := f32Sign_lt w; omega
  · rw [hs, pow_zero, one_mul] at hy
    rcases le_or_gt e (f32Exp w) with hle | hlt
    · obtain ⟨d, hd⟩ := Nat.exists_eq_add_of_le hle
      refine .inl ⟨(2 ^ 23 + f32Frac w) * 2 ^ d, fun hm => hne ?_, ?_⟩
      · -- An equal significand below `2^24` leaves no room for a larger exponent.
        have hd0 : d = 0 := by
          by_contra hpos
          have : 2 ^ 1 ≤ 2 ^ d := Nat.pow_le_pow_right (by omega) (by omega)
          nlinarith
        have hfrac : f32Frac w = m - 2 ^ 23 := by rw [hd0, pow_zero, mul_one] at hm; omega
        rw [← packF32_fields w, hs, hd, hd0, Nat.add_zero, hfrac]
      · rw [hy, hd, f32Ulp_add]
        push_cast
        ring
    · obtain ⟨d, hd⟩ := Nat.exists_eq_add_of_lt hlt
      have hF' : ((2 ^ 23 + f32Frac w : Nat) : Rat) ≤ 2 ^ 24 - 1 := by
        have : 2 ^ 23 + f32Frac w + 1 ≤ 2 ^ 24 := by omega
        have : ((2 ^ 23 + f32Frac w + 1 : Nat) : Rat) ≤ (2 ^ 24 : Nat) := by exact_mod_cast this
        push_cast at this ⊢
        linarith
      have hulp : 2 * f32Ulp (f32Exp w) ≤ f32Ulp e := by
        rw [hd, Nat.add_assoc, f32Ulp_add]
        have : 2 ≤ 2 ^ (d + 1) := Nat.le_self_pow (by omega) 2
        gcongr
        exact_mod_cast this
      refine .inr ?_
      calc y
        _ ≤ (2 ^ 24 - 1) * f32Ulp (f32Exp w) := hy ▸ by gcongr
        _ = (2 ^ 23 - 1 / 2) * (2 * f32Ulp (f32Exp w)) := by ring
        _ ≤ (2 ^ 23 - 1 / 2) * f32Ulp e := by gcongr
  · refine .inr ?_
    have hneg : y ≤ 0 := by rw [hy, hs, pow_one, neg_one_mul, neg_nonpos]; positivity
    have : (0 : Rat) ≤ (2 ^ 23 - 1 / 2) * f32Ulp e := by positivity
    linarith

/-- A word less than half a spacing from a number not below its binade is the nearest one: any other
multiple of the spacing is a whole spacing away from it, any other word half a spacing below. -/
theorem isNearestF32_packF32 {e m : Nat} {x : Rat} (he : 1 ≤ e ∧ e ≤ 254) (hlo : 2 ^ 23 ≤ m)
    (hhi : m < 2 ^ 24) (hx : |m * f32Ulp e - x| < f32Ulp e / 2) (hbinade : 2 ^ 23 * f32Ulp e ≤ x) :
    IsNearestF32 (packF32 0 e (m - 2 ^ 23)) x := by
  refine ⟨_, f32Val_packF32_significand he hlo hhi, fun w y hw hne => hx.trans_le ?_⟩
  rcases f32Val_multiple_or_below hlo hhi hw hne with ⟨n, hnm, rfl⟩ | hbelow
  · have hstep : f32Ulp e ≤ |n * f32Ulp e - m * f32Ulp e| := by
      have hone : (1 : Rat) ≤ |(n : Rat) - m| := by
        have : (1 : Int) ≤ |(n : Int) - m| := Int.one_le_abs (by omega)
        exact_mod_cast this
      rw [← sub_mul, abs_mul, abs_of_pos (f32Ulp_pos e)]
      exact le_mul_of_one_le_left (f32Ulp_pos e).le hone
    have htri := abs_sub_le (n * f32Ulp e) x (m * f32Ulp e)
    rw [abs_sub_comm x] at htri
    linarith
  · rw [abs_sub_comm]
    exact le_abs.mpr (.inl (by linarith))

end Sys2Proof.Machine
end

section
/-! PROOF. Quarter-unit unpacking: its significand is the rounded quotient, never a tie and never
carried out, so its word is the nearest (42_fix2float.md R79, R80), and DECPA's in Barometer mode
is (40_decode_pa.md R62). -/

namespace Sys2Proof.Machine
open Sys2Proof.Safety

/-- The scaled dividend keeps at least 15 trailing zeros, the exponent being at most 20. -/
theorem two_pow_15_dvd_div4000Scaled {v : BitVec 20} (hv : v ≠ 0#20) :
    2 ^ 15 ∣ div4000Scaled v := by
  obtain ⟨_, _, hk⟩ := div4000Exp_spec hv
  exact Dvd.dvd.mul_left (pow_dvd_pow 2 (by omega)) _

/-- Twice the remainder is never the divisor (R80): 2000 has too few trailing zeros. -/
theorem div4000Rem_no_tie {v : BitVec 20} (hv : v ≠ 0#20) : 2 * div4000Rem v ≠ 4000 := by
  have hdvd := two_pow_15_dvd_div4000Scaled hv
  obtain ⟨hdiv, _⟩ := div4000_divmod v
  omega

/-- The rounded quotient has 24 bits: the carry-out of R79 is never taken. -/
theorem div4000Rounded_bounds {v : BitVec 20} (hv : v ≠ 0#20) :
    2 ^ 23 ≤ div4000Rounded v ∧ div4000Rounded v < 2 ^ 24 := by
  have hdvd := two_pow_15_dvd_div4000Scaled hv
  obtain ⟨hdiv, hrem⟩ := div4000_divmod v
  obtain ⟨hlo, hhi⟩ := div4000Quot_bounds hv
  rw [div4000Rounded]
  split <;> omega

/-- The rounded quotient is strictly less than half from the exact one. -/
theorem div4000Rounded_near {v : BitVec 20} (hv : v ≠ 0#20) :
    4000 * div4000Rounded v < div4000Scaled v + 2000 ∧
      div4000Scaled v < 4000 * div4000Rounded v + 2000 := by
  have htie := div4000Rem_no_tie hv
  obtain ⟨hdiv, hrem⟩ := div4000_divmod v
  rw [div4000Rounded]
  split <;> omega

/-- The word of quarter-unit unpacking, without the branches never taken. -/
theorem f32Div4000_of_ne_zero {v : BitVec 20} (hv : v ≠ 0#20) :
    f32Div4000 v = packF32 0 (div4000Exp v + 115) (div4000Rounded v - 2 ^ 23) := by
  have hcarry : div4000Rounded v ≠ 2 ^ 24 := (div4000Rounded_bounds hv).2.ne
  rw [f32Div4000, if_neg hv, if_neg hcarry]

/-- The exact quotient is the unrounded one in spacings of the word: the two shifts add up. -/
theorem div4000_eq_scaled_ulp {v : BitVec 20} (hv : v ≠ 0#20) :
    (v.toNat : Rat) / 4000 = (div4000Scaled v : Rat) / 4000 * f32Ulp (div4000Exp v + 115) := by
  obtain ⟨_, _, hk⟩ := div4000Exp_spec hv
  have hshift : div4000Scaled v * 2 ^ (div4000Exp v + 115) = v.toNat * 2 ^ 150 := by
    rw [div4000Scaled, Nat.mul_assoc, ← pow_add]; congr 2; omega
  have hshift' : (div4000Scaled v : Rat) * (2 ^ (div4000Exp v + 115) : Nat) =
      v.toNat * (2 ^ 150 : Nat) := by exact_mod_cast hshift
  rw [f32Ulp, div_mul_div_comm, hshift']
  exact (mul_div_mul_right _ _ (by positivity)).symm

/-- Quarter-unit unpacking gives the word nearest to the exact quotient (R79). -/
theorem isNearestF32_f32Div4000 (v : BitVec 20) :
    IsNearestF32 (f32Div4000 v) ((v.toNat : Rat) / 4000) := by
  by_cases hv : v = 0#20
  · subst hv
    refine ⟨0, by simp, fun w y hw hne => ?_⟩
    simpa using f32Val_ne_zero hw (by simpa using hne)
  obtain ⟨_, _, hk⟩ := div4000Exp_spec hv
  obtain ⟨hlo, hhi⟩ := div4000Rounded_bounds hv
  obtain ⟨hnear, hnear'⟩ := div4000Rounded_near hv
  have hu := f32Ulp_pos (div4000Exp v + 115)
  rw [f32Div4000_of_ne_zero hv, div4000_eq_scaled_ulp hv]
  refine isNearestF32_packF32 (by omega) hlo hhi ?_ ?_
  · have hhalf : |(div4000Rounded v : Rat) - (div4000Scaled v : Rat) / 4000| < 1 / 2 := by
      have h1 : (4000 * div4000Rounded v : Rat) < div4000Scaled v + 2000 := by exact_mod_cast hnear
      have h2 : (div4000Scaled v : Rat) < 4000 * div4000Rounded v + 2000 := by exact_mod_cast hnear'
      rw [abs_lt]
      constructor <;> linarith
    rw [← sub_mul, abs_mul, abs_of_pos hu]
    linarith [mul_lt_mul_of_pos_right hhalf hu]
  · have hbinade : 4000 * 2 ^ 23 ≤ div4000Scaled v := by
      obtain ⟨hdiv, _⟩ := div4000_divmod v
      have := (div4000Quot_bounds hv).1
      omega
    have : (2 : Rat) ^ 23 ≤ (div4000Scaled v : Rat) / 4000 := by
      rw [le_div_iff₀' (by norm_num)]; exact_mod_cast hbinade
    gcongr

/-- Settles O11: DECPA answers the converter's nearest word for the field assembled. -/
theorem decpaBarometerAnswersTheNearestQuotient :
    Obligations.DecpaBarometerAnswersTheNearestQuotient := by
  refine ⟨fun b0 b1 b2 s hs => ?_, ?_, ?_⟩
  · refine ⟨_, exec_decpa_of_mode hs (decpa_barometer _ b0 b1 b2), ?_⟩
    rw [← asm20_toNat]
    exact isNearestF32_f32Div4000 _
  · norm_num [barometerValue]
  · norm_num [barometerValue]

end Sys2Proof.Machine
end

section
/-! PROOF. Responses keep the order of the raw values and tell them apart (40_decode_pa.md R66 (d),
41_decode_t.md R73, 95_test_vectors.md section 5.2). -/

namespace Sys2Proof.Machine

/-- Sixteenth-unit unpacking keeps the order of the integers, in the words' values. -/
theorem f32Val_f32Sixteenths_lt {n n' : Int} (hn : n.natAbs < 2 ^ 24) (hn' : n'.natAbs < 2 ^ 24)
    (h : n < n') :
    ∃ y y', f32Val (f32Sixteenths n) = some y ∧ f32Val (f32Sixteenths n') = some y' ∧ y < y' := by
  refine ⟨_, _, f32Val_f32Sixteenths hn, f32Val_f32Sixteenths hn', ?_⟩
  have : (n : Rat) < n' := by exact_mod_cast h
  linarith

/-- Sixteenth-unit unpacking tells integers apart: their words have different values. -/
theorem f32Sixteenths_injective {n n' : Int} (hn : n.natAbs < 2 ^ 24) (hn' : n'.natAbs < 2 ^ 24)
    (h : f32Sixteenths n = f32Sixteenths n') : n = n' := by
  have hval := congrArg f32Val h
  rw [f32Val_f32Sixteenths hn, f32Val_f32Sixteenths hn', Option.some.injEq,
    div_left_inj' (by norm_num)] at hval
  exact_mod_cast hval

/-- The word of quarter-unit unpacking as a number. -/
theorem f32Div4000_toNat {v : BitVec 20} (hv : v ≠ 0#20) :
    (f32Div4000 v).toNat = (div4000Exp v + 114) * 2 ^ 23 + div4000Rounded v := by
  obtain ⟨_, _, hk⟩ := div4000Exp_spec hv
  obtain ⟨hlo, hhi⟩ := div4000Rounded_bounds hv
  rw [f32Div4000_of_ne_zero hv, packF32_toNat (by omega) (by omega) (by omega)]
  omega

theorem div4000Exp_mono {v v' : BitVec 20} (h : v.toNat ≤ v'.toNat) :
    div4000Exp v ≤ div4000Exp v' := by
  simp only [div4000Exp, Nat.log2_eq_log_two]
  exact Nat.log_mono_right (Nat.div_le_div_right (Nat.mul_le_mul_right _ h))

/-- Under one exponent the scaled dividends are at least `2^15` apart, more than rounding to a
multiple of 4000 can undo. -/
theorem div4000Rounded_lt {v v' : BitVec 20} (hv : v ≠ 0#20) (h : v.toNat < v'.toNat)
    (hexp : div4000Exp v = div4000Exp v') : div4000Rounded v < div4000Rounded v' := by
  have hv' : v' ≠ 0#20 := fun h0 => by simp [h0] at h
  obtain ⟨_, _, hk⟩ := div4000Exp_spec hv
  have hgap : div4000Scaled v + 2 ^ 15 ≤ div4000Scaled v' := by
    have hpow : 2 ^ 15 ≤ 2 ^ (35 - div4000Exp v') := Nat.pow_le_pow_right (by omega) (by omega)
    calc div4000Scaled v + 2 ^ 15
      _ ≤ v.toNat * 2 ^ (35 - div4000Exp v') + 2 ^ (35 - div4000Exp v') := by
          rw [div4000Scaled, hexp]; omega
      _ = (v.toNat + 1) * 2 ^ (35 - div4000Exp v') := (Nat.succ_mul ..).symm
      _ ≤ div4000Scaled v' := Nat.mul_le_mul_right _ h
  obtain ⟨hnear, _⟩ := div4000Rounded_near hv
  obtain ⟨_, hnear'⟩ := div4000Rounded_near hv'
  omega

/-- Barometer words increase strictly with the raw value: a larger exponent outweighs any
significand, and under one exponent the significands increase. -/
theorem f32Div4000_toNat_lt {v v' : BitVec 20} (h : v.toNat < v'.toNat) :
    (f32Div4000 v).toNat < (f32Div4000 v').toNat := by
  have hv' : v' ≠ 0#20 := fun h0 => by simp [h0] at h
  obtain ⟨hlo', _⟩ := div4000Rounded_bounds hv'
  rw [f32Div4000_toNat hv']
  by_cases hv : v = 0#20
  · rw [hv, f32Div4000_zero]
    simp only [BitVec.toNat_ofNat]
    omega
  obtain ⟨_, hhi⟩ := div4000Rounded_bounds hv
  rw [f32Div4000_toNat hv]
  rcases (div4000Exp_mono h.le).lt_or_eq with hlt | heq
  · omega
  · have := div4000Rounded_lt hv h heq
    omega

theorem f32Div4000_injective : Function.Injective f32Div4000 := by
  intro v v' h
  by_contra hne
  rcases Nat.lt_or_gt_of_ne (mt BitVec.eq_of_toNat_eq hne) with hlt | hgt
  · exact (f32Div4000_toNat_lt hlt).ne (congrArg BitVec.toNat h)
  · exact (f32Div4000_toNat_lt hgt).ne' (congrArg BitVec.toNat h)

/-- In each mode equal responses of DECPA come from equal raw values. -/
theorem asm20_eq_of_decpa_eq {m : Mode} {a0 a1 a2 b0 b1 b2 : Byte}
    (h : decpa .twosComplement m a0 a1 a2 = decpa .twosComplement m b0 b1 b2) :
    asm20 a0 a1 a2 = asm20 b0 b1 b2 := by
  cases m with
  | barometer => exact f32Div4000_injective h
  | altimeter =>
    exact sext_injective (f32Sixteenths_injective (sext20_natAbs_lt _) (sext20_natAbs_lt _) h)

theorem asm12_eq_of_dect_eq {a0 a1 b0 b1 : Byte} (h : dect a0 a1 = dect b0 b1) :
    asm12 a0 a1 = asm12 b0 b1 :=
  sext_injective (f32Sixteenths_injective (sext12_natAbs_lt _) (sext12_natAbs_lt _) h)

/-- Settles O15: both conversions keep the order, so they lose no raw value. -/
theorem responsesKeepTheOrderOfRawValues : Obligations.ResponsesKeepTheOrderOfRawValues :=
  ⟨fun _ _ => f32Div4000_toNat_lt,
    fun v v' => f32Val_f32Sixteenths_lt (sext20_natAbs_lt v) (sext20_natAbs_lt v'),
    fun t t' => f32Val_f32Sixteenths_lt (sext12_natAbs_lt t) (sext12_natAbs_lt t'),
    fun _ _ _ _ => f32Val_f32Sixteenths_lt (sext12_natAbs_lt _) (sext12_natAbs_lt _),
    fun _ _ _ _ _ _ _ => asm20_eq_of_decpa_eq,
    fun _ _ _ _ => asm12_eq_of_dect_eq⟩

end Sys2Proof.Machine
end

section
/-! PROOF. The same bytes under the two modes (40_decode_pa.md R67). -/

namespace Sys2Proof.Machine

@[simp] theorem f32Sign_zero : f32Sign 0#32 = 0 := rfl

/-- The sign bit of sixteenth-unit unpacking is the integer's sign. -/
theorem f32Sign_f32Sixteenths {n : Int} (h24 : n.natAbs < 2 ^ 24) :
    f32Sign (f32Sixteenths n) = if n < 0 then 1 else 0 := by
  by_cases hn : n = 0
  · simp [hn]
  obtain ⟨hfrac, hlo, hhi⟩ := sixteenths_frac (m := n.natAbs) (by omega) h24
  have hk : n.natAbs.log2 < 24 := (Nat.log2_lt (by omega)).mpr h24
  rw [f32Sixteenths, if_neg hn]
  dsimp only
  rw [hfrac, f32Sign_packF32 (by split <;> omega) (by omega) (by omega)]

/-- Quarter-unit unpacking never gives a negative word. -/
theorem f32Sign_f32Div4000 (v : BitVec 20) : f32Sign (f32Div4000 v) = 0 := by
  by_cases hv : v = 0#20
  · simp [hv]
  obtain ⟨_, _, hk⟩ := div4000Exp_spec hv
  obtain ⟨hlo, hhi⟩ := div4000Rounded_bounds hv
  rw [f32Div4000_of_ne_zero hv, f32Sign_packF32 (by omega) (by omega) (by omega)]

/-- Up to `0x7FFFF` a sixteenth of the raw value is 250 times a four-thousandth of it. -/
theorem altimeterValue_eq_250_mul {v : BitVec 20} (h : v.toNat ≤ 0x7FFFF) :
    altimeterValue v = 250 * barometerValue v := by
  rw [altimeterValue, barometerValue, sext_eq_ite, if_pos (by omega), Int.cast_natCast]
  ring

/-- Settles O16: the exact altitude below, the two sign bits above. -/
theorem onePatternTwoMeanings : Obligations.OnePatternTwoMeanings := by
  intro b0 b1 b2
  rw [decpa_altimeter, decpa_barometer]
  refine ⟨fun h => ?_, fun h => ⟨?_, f32Sign_f32Div4000 _⟩⟩
  · rw [f32Val_f32Sixteenths_sext20, altimeterValue_eq_250_mul h]
  · have hneg : sext (asm20 b0 b1 b2) < 0 := by rw [sext20_of_gt h]; omega
    rw [f32Sign_f32Sixteenths (sext20_natAbs_lt _), if_pos hneg]

end Sys2Proof.Machine
end

section
/-! PROOF. DECT in every state, as the first command after a reset too, and its corner words
(41_decode_t.md R70, R71, R73). -/

namespace Sys2Proof.Machine

/-- The word the host presents next is the command the next step executes. -/
theorem step_withFetchWord_encode (i : Instr) (s : State) :
    step (s.withFetchWord 32 (encode i).toNat) = exec i { s with rst := false } := by
  have hword : BitVec.ofNat 32 ((encode i).toNat % 2 ^ 32) = encode i := by
    rw [Nat.mod_eq_of_lt (encode i).isLt, BitVec.ofNat_toNat, BitVec.setWidth_eq]
  have hinputs :
      (s.withFetchWord 32 (encode i).toNat).inputs = .command (encode i) :: s.inputs := by
    rw [State.withFetchWord_inputs, hword]
  exact step_encode hinputs rfl

/-- Settles O18: the pure function's word, which reads nothing of the state. -/
theorem dectIgnoresTheMode : Obligations.DectIgnoresTheMode :=
  fun b0 b1 => ⟨dect b0 b1, exec_dect b0 b1,
    fun m => (step_withFetchWord_encode (.dect b0 b1) (State.resetTo m)).trans (exec_dect ..)⟩

/-- DECT adds the converter's word for the field its bytes assemble to, and changes nothing else. -/
theorem exec_dect_of_field {b0 b1 : Byte} {t : BitVec 12} {w : Word} (ht : asm12 b0 b1 = t)
    (hw : f32Sixteenths (sext t) = w) (s : State) :
    exec (.dect b0 b1) s = .next { s with responses := s.responses ++ [w] } := by
  subst ht hw
  exact exec_dect b0 b1 s

/-- The bytes of `DECT.t t` assemble to `t`. -/
theorem exec_dectT_of_word {t : BitVec 12} {w : Word} (hw : f32Sixteenths (sext t) = w)
    (s : State) : exec (.dectT t) s = .next { s with responses := s.responses ++ [w] } :=
  exec_dect_of_field (asm12_pack t 0#4) hw s

/-- The word of 25.5 degrees, the worked example of R70. -/
theorem f32Sixteenths_sext_0x198 : f32Sixteenths (sext 0x198#12) = 0x41CC0000#32 := by decide

/-- Settles O19: each word is the converter's for its field; `DECT 19, 80` and `DECT 19, 8F`
assemble to the one field `0x198`. -/
theorem dectCornerWords : Obligations.DectCornerWords := by
  intro s
  refine ⟨?zero, ?largest, ?minusOne, ?mostNegative, ?nibbleZero, ?nibbleSet⟩
  case zero => exact exec_dectT_of_word (by decide) s
  case largest => exact exec_dectT_of_word (by decide) s
  case minusOne => exact exec_dectT_of_word (by decide) s
  case mostNegative => exact exec_dectT_of_word (by decide) s
  case nibbleZero => exact exec_dect_of_field (by decide) f32Sixteenths_sext_0x198 s
  case nibbleSet => exact exec_dect_of_field (by decide) f32Sixteenths_sext_0x198 s

end Sys2Proof.Machine
end

section
/-! PROOF. The exponent field of every response, and the invariant that every response given is
`+0` or a normal number in range (42_fix2float.md R82). -/

namespace Sys2Proof.Machine
open Sys2Proof.Safety

/-- The exponent field of sixteenth-unit unpacking: `127 + k - 4`, `k` the leading one of `|n|`. -/
theorem f32Exp_f32Sixteenths {n : Int} (hn : n ≠ 0) (h24 : n.natAbs < 2 ^ 24) :
    f32Exp (f32Sixteenths n) = n.natAbs.log2 + 123 := by
  obtain ⟨hfrac, hlo, hhi⟩ := sixteenths_frac (m := n.natAbs) (by omega) h24
  have hk : n.natAbs.log2 < 24 := (Nat.log2_lt (by omega)).mpr h24
  rw [f32Sixteenths, if_neg hn]
  dsimp only
  rw [hfrac, f32Exp_packF32 (by split <;> omega) (by omega) (by omega)]
  omega

/-- The exponent field of quarter-unit unpacking: the exponent of the division, biased. -/
theorem f32Exp_f32Div4000 {v : BitVec 20} (hv : v ≠ 0#20) :
    f32Exp (f32Div4000 v) = div4000Exp v + 115 := by
  obtain ⟨_, _, hk⟩ := div4000Exp_spec hv
  obtain ⟨hlo, hhi⟩ := div4000Rounded_bounds hv
  rw [f32Div4000_of_ne_zero hv, f32Exp_packF32 (by omega) (by omega) (by omega)]

/-- Up to the magnitude of the most negative raw value the exponent field is 123 to 142. -/
theorem f32Exp_f32Sixteenths_bounds {n : Int} (hn : n ≠ 0) (h : n.natAbs ≤ 524288) :
    123 ≤ f32Exp (f32Sixteenths n) ∧ f32Exp (f32Sixteenths n) ≤ 142 := by
  have hk : n.natAbs.log2 < 20 := (Nat.log2_lt (by omega)).mpr (by omega)
  rw [f32Exp_f32Sixteenths hn (by omega)]
  omega

/-- The exponent field of a Barometer response is 115 to 135. -/
theorem f32Exp_f32Div4000_bounds {v : BitVec 20} (hv : v ≠ 0#20) :
    115 ≤ f32Exp (f32Div4000 v) ∧ f32Exp (f32Div4000 v) ≤ 135 := by
  obtain ⟨_, _, hk⟩ := div4000Exp_spec hv
  rw [f32Exp_f32Div4000 hv]
  omega

@[simp] theorem plainResponse_zero : plainResponse 0#32 = true := rfl

theorem plainResponse_of_exp {w : Word} (h : 115 ≤ f32Exp w ∧ f32Exp w ≤ 142) :
    plainResponse w = true := by
  simp [plainResponse, h]

theorem plainResponse_f32Sixteenths {n : Int} (h : n.natAbs ≤ 524288) :
    plainResponse (f32Sixteenths n) = true := by
  by_cases hn : n = 0
  · simp [hn]
  have hexp := f32Exp_f32Sixteenths_bounds hn h
  exact plainResponse_of_exp (by omega)

theorem plainResponse_f32Div4000 (v : BitVec 20) : plainResponse (f32Div4000 v) = true := by
  by_cases hv : v = 0#20
  · simp [hv]
  have hexp := f32Exp_f32Div4000_bounds hv
  exact plainResponse_of_exp (by omega)

/-- Sign-extended fields reach no further than the most negative raw value. -/
theorem sext20_natAbs_le (v : BitVec 20) : (sext v).natAbs ≤ 524288 := by
  have := sext20_bounds v; omega

theorem sext12_natAbs_le (t : BitVec 12) : (sext t).natAbs ≤ 524288 := by
  have := sext12_bounds t; omega

/-- Every instruction adds one plain response, whatever its operands. -/
theorem exec_adds_plainResponse {i : Instr} {s t : State} (h : exec i s = .next t) :
    ∃ w, plainResponse w = true ∧ t.responses = s.responses ++ [w] := by
  cases i with
  | decpa b0 b1 b2 =>
    cases h
    refine ⟨decpa Config.altMostNeg s.mode b0 b1 b2, ?_, rfl⟩
    cases s.mode with
    | barometer => exact plainResponse_f32Div4000 _
    | altimeter => exact plainResponse_f32Sixteenths (sext20_natAbs_le _)
  | dect b0 b1 =>
    cases h
    exact ⟨dect b0 b1, plainResponse_f32Sixteenths (sext12_natAbs_le _), rfl⟩
  | setmode m =>
    cases h
    exact ⟨0#32, plainResponse_zero, rfl⟩

/-- A step keeps the responses given, and adds at most one, which is plain. -/
theorem step_adds_plainResponse {s t : State} (h : step s = .next t) :
    t.responses = s.responses ∨
      ∃ w, plainResponse w = true ∧ t.responses = s.responses ++ [w] := by
  rcases step_next_cases h with ⟨_, rfl⟩ | ⟨b, rest, _, rfl⟩ | ⟨cmd, rest, _, _, rfl⟩ |
    ⟨cmd, rest, i, _, _, _, hexec⟩
  · exact .inl rfl
  · exact .inl (State.driveRst_responses _ b)
  · exact .inl rfl
  · obtain ⟨w, hw, hadd⟩ := exec_adds_plainResponse hexec
    exact .inr ⟨w, hw, hadd⟩

/-- Settles O37: the one response a step may add is plain for every operand. -/
theorem stepKeepsResponsesPlain : Obligations.StepKeepsResponsesPlain := by
  intro s t hs hstep w hw
  rcases step_adds_plainResponse hstep with hkeep | ⟨r, hr, hadd⟩
  · exact hs w (hkeep ▸ hw)
  · rw [hadd, List.mem_append, List.mem_singleton] at hw
    rcases hw with hw | rfl
    · exact hs w hw
    · exact hr

end Sys2Proof.Machine
end

section
/-! PROOF. The number a word denotes, in the rule's own form, and that no two words denote the same
(42_fix2float.md R75, R77). -/

namespace Sys2Proof.Machine

/-- The spacing of biased exponent `e` is the power of two of its last fraction bit. -/
theorem f32Ulp_eq_zpow (e : Nat) : f32Ulp e = (2 : Rat) ^ ((e : Int) - 150) := by
  rw [f32Ulp, zpow_sub₀ (by norm_num)]
  push_cast
  norm_cast

/-- The value of a normal word, by its significand. -/
theorem f32Val_of_normal {w : Word} (he : 1 ≤ f32Exp w ∧ f32Exp w ≤ 254) :
    f32Val w =
      some ((-1) ^ f32Sign w * ((2 ^ 23 + f32Frac w : Nat) * f32Ulp (f32Exp w))) := by
  have hF := f32Frac_lt w
  conv_lhs => rw [← packF32_fields w]
  rw [f32Val_packF32 (f32Sign_lt w) he hF, f32Ulp]
  congr 1
  push_cast
  ring

/-- Settles O29: `2^(E-127)` is `2^23` spacings. -/
theorem valueOfAWord : Obligations.ValueOfAWord := by
  refine ⟨fun w h1 h254 => ?_, f32Val_zero⟩
  have hunit : (2 : Rat) ^ ((f32Exp w : Int) - 127) = 2 ^ 23 * f32Ulp (f32Exp w) := by
    rw [f32Ulp_eq_zpow, show (f32Exp w : Int) - 127 = 23 + (f32Exp w - 150) by ring,
      zpow_add₀ (by norm_num)]
    norm_cast
  rw [f32Val_of_normal ⟨h1, h254⟩, hunit]
  congr 1
  push_cast
  ring

/-- A 24-bit significand and an exponent are determined by the number they make. -/
theorem significand_ulp_injective {m m' e e' : Nat} (hm : 2 ^ 23 ≤ m ∧ m < 2 ^ 24)
    (hm' : 2 ^ 23 ≤ m' ∧ m' < 2 ^ 24) (h : (m : Rat) * f32Ulp e = m' * f32Ulp e') :
    m = m' ∧ e = e' := by
  wlog hle : e ≤ e' generalizing m m' e e'
  · exact (this hm' hm h.symm (by omega)).imp Eq.symm Eq.symm
  obtain ⟨d, rfl⟩ := Nat.exists_eq_add_of_le hle
  have hshift : m = m' * 2 ^ d := by
    rw [f32Ulp_add, ← mul_assoc] at h
    exact_mod_cast mul_right_cancel₀ (f32Ulp_pos e).ne' h
  have hd : d = 0 := by
    by_contra hpos
    have : 2 ^ 1 ≤ 2 ^ d := Nat.pow_le_pow_right (by omega) (by omega)
    nlinarith
  subst hd
  exact ⟨by omega, rfl⟩

/-- A sign and a positive magnitude are determined by the number they make. -/
theorem sign_magnitude_injective {s s' : Nat} {a a' : Rat} (hs : s < 2) (hs' : s' < 2)
    (ha : 0 < a) (ha' : 0 < a') (h : (-1) ^ s * a = (-1) ^ s' * a') : s = s' ∧ a = a' := by
  interval_cases s <;> interval_cases s' <;> simp at h ⊢ <;> linarith

/-- No two words have the same value. -/
theorem f32Val_injective {w w' : Word} {y : Rat} (h : f32Val w = some y) (h' : f32Val w' = some y) :
    w = w' := by
  rcases f32Val_cases h with ⟨rfl, rfl⟩ | ⟨_, _, hy⟩
  · by_contra hne
    exact f32Val_ne_zero h' (Ne.symm hne) rfl
  rcases f32Val_cases h' with ⟨rfl, rfl⟩ | ⟨_, _, hy'⟩
  · by_contra hne
    exact f32Val_ne_zero h hne rfl
  have hu := f32Ulp_pos (f32Exp w)
  have hu' := f32Ulp_pos (f32Exp w')
  have hF := f32Frac_lt w
  have hF' := f32Frac_lt w'
  obtain ⟨hsign, hmag⟩ := sign_magnitude_injective (f32Sign_lt w) (f32Sign_lt w') (by positivity)
    (by positivity) (hy.symm.trans hy')
  obtain ⟨hsig, hexp⟩ := significand_ulp_injective (by omega) (by omega) hmag
  rw [← packF32_fields w, ← packF32_fields w', hsign, hexp, Nat.add_left_cancel hsig]

/-- Settles O30: the value is exact, and a value has one word. -/
theorem sixteenthUnpackingIsExact : Obligations.SixteenthUnpackingIsExact :=
  fun _ hn => ⟨f32Val_f32Sixteenths hn, fun _ hw => f32Val_injective hw (f32Val_f32Sixteenths hn)⟩

end Sys2Proof.Machine
end

section
/-! PROOF. Quarter-unit unpacking: nearest, without ties, exact where 125 divides the raw value
(42_fix2float.md R79 to R81). -/

namespace Sys2Proof.Machine
open Sys2Proof.Safety

/-- Settles O31: the rounded quotient is less than half a spacing away. -/
theorem quarterUnpackingIsNearest : Obligations.QuarterUnpackingIsNearest :=
  isNearestF32_f32Div4000

/-- A number lies in one binade only. -/
theorem binade_unique {a x j k : Nat} (hj : a * 2 ^ j ≤ x) (hk : x < a * 2 ^ (k + 1)) : j ≤ k := by
  by_contra hlt
  have : a * 2 ^ (k + 1) ≤ a * 2 ^ j :=
    Nat.mul_le_mul_left a (Nat.pow_le_pow_right (by omega) (by omega))
  omega

/-- Settles O32: the exponent by uniqueness of the binade, the rest by the trailing zeros of the
scaled dividend. -/
theorem divisionHasNoTies : Obligations.DivisionHasNoTies := by
  intro v k hv
  obtain ⟨hlo, hhi, _⟩ := div4000Exp_spec hv
  refine ⟨⟨fun ⟨hlo', hhi'⟩ => ?_, ?_⟩, div4000Rem_no_tie hv, div4000Rounded_bounds hv⟩
  · exact le_antisymm (binade_unique hlo' hhi) (binade_unique hlo hhi')
  · rintro rfl
    exact ⟨hlo, hhi⟩

/-- The value of quarter-unit unpacking: the rounded quotient in spacings of the word. -/
theorem f32Val_f32Div4000 {v : BitVec 20} (hv : v ≠ 0#20) :
    f32Val (f32Div4000 v) = some (div4000Rounded v * f32Ulp (div4000Exp v + 115)) := by
  obtain ⟨_, _, hk⟩ := div4000Exp_spec hv
  obtain ⟨hlo, hhi⟩ := div4000Rounded_bounds hv
  rw [f32Div4000_of_ne_zero hv, f32Val_packF32_significand (by omega) hlo hhi]

/-- Rounding changes nothing exactly if the division leaves no remainder. -/
theorem div4000Rounded_exact_iff (v : BitVec 20) :
    4000 * div4000Rounded v = div4000Scaled v ↔ 4000 ∣ div4000Scaled v := by
  obtain ⟨hdiv, hrem⟩ := div4000_divmod v
  rw [div4000Rounded]
  split <;> omega

/-- Of the divisor `2^5 * 125` the shift by at least 15 supplies the power of two. -/
theorem dvd_div4000Scaled_iff {v : BitVec 20} (hv : v ≠ 0#20) :
    4000 ∣ div4000Scaled v ↔ 125 ∣ v.toNat := by
  have hdvd := two_pow_15_dvd_div4000Scaled hv
  have hcop : Nat.Coprime 125 (2 ^ (35 - div4000Exp v)) := Nat.Coprime.pow_right _ (by decide)
  rw [← hcop.dvd_mul_right (m := v.toNat), ← div4000Scaled]
  omega

/-- The value is the exact quotient exactly if 125 divides the raw value. -/
theorem f32Val_f32Div4000_exact_iff (v : BitVec 20) :
    f32Val (f32Div4000 v) = some ((v.toNat : Rat) / 4000) ↔ 125 ∣ v.toNat := by
  by_cases hv : v = 0#20
  · simp [hv]
  have hu := (f32Ulp_pos (div4000Exp v + 115)).ne'
  rw [f32Val_f32Div4000 hv, div4000_eq_scaled_ulp hv, Option.some.injEq, mul_left_inj' hu,
    eq_div_iff (by norm_num), mul_comm, ← dvd_div4000Scaled_iff hv, ← div4000Rounded_exact_iff]
  norm_cast

/-- The scaled dividend keeps away from the midpoints: it is a multiple of 16, half the divisor
one too, so a remainder that is no tie is at least 16 from one. -/
theorem div4000Rounded_off_midpoint {v : BitVec 20} (hv : v ≠ 0#20) :
    4000 * div4000Rounded v ≤ div4000Scaled v + 1984 ∧
      div4000Scaled v ≤ 4000 * div4000Rounded v + 1984 := by
  have hdvd := two_pow_15_dvd_div4000Scaled hv
  obtain ⟨hnear, hnear'⟩ := div4000Rounded_near hv
  omega

/-- The value is at most `1984 / 4000` spacings from the exact quotient. -/
theorem f32Div4000_dist_le {v : BitVec 20} (hv : v ≠ 0#20) :
    |div4000Rounded v * f32Ulp (div4000Exp v + 115) - (v.toNat : Rat) / 4000| ≤
      1984 / 4000 * f32Ulp (div4000Exp v + 115) := by
  obtain ⟨hle, hge⟩ := div4000Rounded_off_midpoint hv
  have hu := f32Ulp_pos (div4000Exp v + 115)
  have hle' : (4000 * div4000Rounded v : Rat) ≤ div4000Scaled v + 1984 := by exact_mod_cast hle
  have hge' : (div4000Scaled v : Rat) ≤ 4000 * div4000Rounded v + 1984 := by exact_mod_cast hge
  have hdist : |(div4000Rounded v : Rat) - div4000Scaled v / 4000| ≤ 1984 / 4000 := by
    rw [abs_le]
    constructor <;> linarith
  rw [div4000_eq_scaled_ulp hv, ← sub_mul, abs_mul, abs_of_pos hu]
  gcongr

/-- The exact quotient lies in the binade of the word. -/
theorem div4000_binade {v : BitVec 20} (hv : v ≠ 0#20) :
    2 ^ 23 * f32Ulp (div4000Exp v + 115) ≤ (v.toNat : Rat) / 4000 ∧
      (v.toNat : Rat) / 4000 < 2 ^ 24 * f32Ulp (div4000Exp v + 115) := by
  obtain ⟨hlo, hhi⟩ := div4000Quot_bounds hv
  obtain ⟨hdiv, hrem⟩ := div4000_divmod v
  have hu := f32Ulp_pos (div4000Exp v + 115)
  have hlo' : (2 : Rat) ^ 23 * 4000 ≤ div4000Scaled v := by
    exact_mod_cast show 2 ^ 23 * 4000 ≤ div4000Scaled v by omega
  have hhi' : (div4000Scaled v : Rat) < 2 ^ 24 * 4000 := by
    exact_mod_cast show div4000Scaled v < 2 ^ 24 * 4000 by omega
  rw [div4000_eq_scaled_ulp hv]
  constructor <;> gcongr
  · rwa [le_div_iff₀ (by norm_num)]
  · rwa [div_lt_iff₀ (by norm_num)]

/-- Rounding moves the quotient by less than half a spacing, and it is at least `2^23` spacings. -/
theorem f32Div4000_error_le (v : BitVec 20) :
    ∃ y, f32Val (f32Div4000 v) = some y ∧
      |y - (v.toNat : Rat) / 4000| ≤ ((v.toNat : Rat) / 4000) / 2 ^ 24 := by
  by_cases hv : v = 0#20
  · exact ⟨0, by simp [hv], by simp [hv]⟩
  have hdist := f32Div4000_dist_le hv
  have hu := f32Ulp_pos (div4000Exp v + 115)
  obtain ⟨hbinade, _⟩ := div4000_binade hv
  exact ⟨_, f32Val_f32Div4000 hv, by linarith⟩

/-- The multiples of 125 below `2^20`: 125 times each number below 8389. -/
theorem ncard_raw_values_dvd_125 : Set.ncard {v : BitVec 20 | 125 ∣ v.toNat} = 8389 := by
  have htoNat (i : Fin 8389) : (BitVec.ofNat 20 (125 * i)).toNat = 125 * i := by
    rw [BitVec.toNat_ofNat]; omega
  have hrange : {v : BitVec 20 | 125 ∣ v.toNat} =
      Set.range fun i : Fin 8389 => BitVec.ofNat 20 (125 * i) := by
    ext v
    refine ⟨fun ⟨k, hk⟩ => ⟨⟨k, by omega⟩, BitVec.eq_of_toNat_eq ((htoNat _).trans hk.symm)⟩, ?_⟩
    rintro ⟨i, rfl⟩
    exact ⟨i, htoNat i⟩
  have hinj : Function.Injective fun i : Fin 8389 => BitVec.ofNat 20 (125 * i) := by
    intro i j h
    have := congrArg BitVec.toNat h
    dsimp only at this
    rw [htoNat, htoNat] at this
    omega
  rw [hrange, Set.ncard_range_of_injective hinj, Nat.card_fin]

/-- Settles O33: exact by divisibility, otherwise by the distance in spacings. -/
theorem barometerExactWhen125Divides : Obligations.BarometerExactWhen125Divides :=
  ⟨fun v => ⟨f32Val_f32Div4000_exact_iff v, f32Div4000_error_le v⟩, ncard_raw_values_dvd_125⟩

/-- Settles O36: counted in spacings of the first word, 5 times it is 42949675, between the two
other words at 42949672 and 42949676. -/
theorem reciprocalMultiplicationDiffers : Obligations.ReciprocalMultiplicationDiffers := by
  have hu := f32Ulp_pos 115
  have hu' : f32Ulp 117 = 4 * f32Ulp 115 := f32Ulp_add 115 2
  refine ⟨by decide, by decide, 0x83126F * f32Ulp 115, 0xA3D70A * f32Ulp 117,
    0xA3D70B * f32Ulp 117, ?first, ?division, ?product, ?nearer⟩
  case first =>
    exact f32Val_packF32_significand (e := 115) (m := 0x83126F) (by decide) (by decide) (by decide)
  case division =>
    exact f32Val_packF32_significand (e := 117) (m := 0xA3D70A) (by decide) (by decide) (by decide)
  case product =>
    exact f32Val_packF32_significand (e := 117) (m := 0xA3D70B) (by decide) (by decide) (by decide)
  case nearer =>
    have hproduct : 0xA3D70B * f32Ulp 117 - 5 * (0x83126F * f32Ulp 115) = f32Ulp 115 := by
      rw [hu']; ring
    have hdivision : 0xA3D70A * f32Ulp 117 - 5 * (0x83126F * f32Ulp 115) = -(3 * f32Ulp 115) := by
      rw [hu']; ring
    rw [hproduct, hdivision, abs_neg, abs_of_pos hu, abs_of_pos (by positivity)]
    linarith

end Sys2Proof.Machine
end

section
/-! PROOF. The ranges of the responses' values (42_fix2float.md R82). -/

namespace Sys2Proof.Machine
open Sys2Proof.Safety

/-- The value of the nearest word does not decrease with the number it is nearest to. -/
theorem isNearestF32_mono {w w' : Word} {x x' y y' : Rat} (h : IsNearestF32 w x)
    (h' : IsNearestF32 w' x') (hy : f32Val w = some y) (hy' : f32Val w' = some y') (hx : x ≤ x') :
    y ≤ y' := by
  obtain ⟨z, hz, hnear⟩ := h
  obtain ⟨z', hz', hnear'⟩ := h'
  obtain rfl : z = y := Option.some.inj (hz.symm.trans hy)
  obtain rfl : z' = y' := Option.some.inj (hz'.symm.trans hy')
  by_contra! hlt
  have hne : w ≠ w' := fun heq => hlt.ne (Option.some.inj (hz'.symm.trans (heq ▸ hz)))
  -- The lower number is on the upper side of the midpoint of the values, the higher on the lower.
  have hlow : z + z' < 2 * x := by
    have := sq_lt_sq.mpr (hnear w' z' hz' hne.symm)
    nlinarith
  have hhigh : 2 * x' < z + z' := by
    have := sq_lt_sq.mpr (hnear' w z hz hne)
    nlinarith
  linarith

/-- The least nonzero Barometer response, in spacings. -/
theorem f32Val_f32Div4000_one : f32Val (f32Div4000 1#20) = some (0x83126F * f32Ulp 115) := by
  rw [show f32Div4000 1#20 = packF32 0 115 (0x83126F - 2 ^ 23) by decide]
  exact f32Val_packF32_significand (by decide) (by decide) (by decide)

/-- The greatest Barometer response, in spacings. -/
theorem f32Val_f32Div4000_max : f32Val (f32Div4000 0xFFFFF#20) = some (0x831266 * f32Ulp 135) := by
  rw [show f32Div4000 0xFFFFF#20 = packF32 0 135 (0x831266 - 2 ^ 23) by decide]
  exact f32Val_packF32_significand (by decide) (by decide) (by decide)

/-- A Barometer response lies between those of the raw values 1 and `0xFFFFF`. -/
theorem f32Div4000_range {v : BitVec 20} (hv : v ≠ 0#20) :
    ∃ y, f32Val (f32Div4000 v) = some y ∧ 1 / 4000 ≤ y ∧ y ≤ 26214375 / 100000 := by
  have hmono {a b : BitVec 20} {y z : Rat} (ha : f32Val (f32Div4000 a) = some y)
      (hb : f32Val (f32Div4000 b) = some z) (hab : a.toNat ≤ b.toNat) : y ≤ z :=
    isNearestF32_mono (isNearestF32_f32Div4000 a) (isNearestF32_f32Div4000 b) ha hb (by gcongr)
  have hone : (1#20).toNat ≤ v.toNat :=
    Nat.one_le_iff_ne_zero.mpr fun h => hv (BitVec.eq_of_toNat_eq h)
  have hmax : v.toNat ≤ (0xFFFFF#20).toNat := Nat.le_pred_of_lt v.isLt
  refine ⟨_, f32Val_f32Div4000 hv, ?_, ?_⟩
  · refine le_trans ?_ (hmono f32Val_f32Div4000_one (f32Val_f32Div4000 hv) hone)
    norm_num [f32Ulp]
  · refine (hmono (f32Val_f32Div4000 hv) f32Val_f32Div4000_max hmax).trans ?_
    norm_num [f32Ulp]

/-- A sixteenth of a nonzero integer is at least a sixteenth in magnitude. -/
theorem f32Sixteenths_range {n : Int} (hn : n ≠ 0) (h : n.natAbs ≤ 524288) :
    ∃ y, f32Val (f32Sixteenths n) = some y ∧ 1 / 16 ≤ |y| ∧ |y| ≤ 32768 := by
  have habs : |(n : Rat)| = n.natAbs := by rw [Nat.cast_natAbs, Int.cast_abs]
  have hlo : (1 : Rat) ≤ n.natAbs := by exact_mod_cast Int.natAbs_pos.mpr hn
  have hhi : (n.natAbs : Rat) ≤ 524288 := by exact_mod_cast h
  refine ⟨_, f32Val_f32Sixteenths (by omega), ?_⟩
  rw [abs_div, habs, abs_of_pos (by norm_num : (0 : Rat) < 16)]
  constructor <;> linarith

/-- A sixteenth-unit response of a sign-extended field is `+0` or a normal number in range. -/
theorem f32Sixteenths_zero_or_normal {n : Int} (h : n.natAbs ≤ 524288) :
    f32Sixteenths n = 0#32 ∨ 123 ≤ f32Exp (f32Sixteenths n) ∧ f32Exp (f32Sixteenths n) ≤ 142 ∧
      ∃ y, f32Val (f32Sixteenths n) = some y ∧ 1 / 16 ≤ |y| ∧ |y| ≤ 32768 := by
  by_cases hn : n = 0
  · exact .inl (by simp [hn])
  obtain ⟨hlo, hhi⟩ := f32Exp_f32Sixteenths_bounds hn h
  exact .inr ⟨hlo, hhi, f32Sixteenths_range hn h⟩

/-- A Barometer response is `+0` or a normal number in range. -/
theorem f32Div4000_zero_or_normal (v : BitVec 20) :
    f32Div4000 v = 0#32 ∨ 115 ≤ f32Exp (f32Div4000 v) ∧ f32Exp (f32Div4000 v) ≤ 135 ∧
      ∃ y, f32Val (f32Div4000 v) = some y ∧ 1 / 4000 ≤ y ∧ y ≤ 26214375 / 100000 := by
  by_cases hv : v = 0#20
  · exact .inl (by simp [hv])
  obtain ⟨hlo, hhi⟩ := f32Exp_f32Div4000_bounds hv
  exact .inr ⟨hlo, hhi, f32Div4000_range hv⟩

theorem div4000Rounded_ne_carry (v : BitVec 20) : div4000Rounded v ≠ 2 ^ 24 := by
  by_cases hv : v = 0#20
  · subst hv
    decide
  · exact (div4000Rounded_bounds hv).2.ne

/-- Settles O34: the responses are the converter's words for the assembled fields. -/
theorem resultsAreZeroOrNormalInRange : Obligations.ResultsAreZeroOrNormalInRange :=
  ⟨fun _ _ _ => f32Div4000_zero_or_normal _,
    fun _ _ _ => f32Sign_f32Div4000 _,
    fun _ _ _ => f32Sixteenths_zero_or_normal (sext20_natAbs_le _),
    fun _ _ => f32Sixteenths_zero_or_normal (sext12_natAbs_le _),
    div4000Rounded_ne_carry⟩

end Sys2Proof.Machine
end

section
/-! PROOF. Numbers of a given count of significant bits, and that rounding the quotient through 53
bits changes nothing (42_fix2float.md R83). -/

namespace Sys2Proof.Machine
open Sys2Proof.Safety

/-- A number strictly nearest is the nearest one. -/
theorem isNearestSignificant_iff_eq {p : Nat} {x y : Rat} (hy : Significant p y)
    (hnear : ∀ d, Significant p d → d ≠ y → |y - x| < |d - x|) (y' : Rat) :
    IsNearestSignificant p y' x ↔ y' = y := by
  refine ⟨fun ⟨hy', hmin⟩ => ?_, ?_⟩
  · by_contra hne
    exact absurd (hmin y hy) (not_le.mpr (hnear y' hy' hne))
  · rintro rfl
    refine ⟨hy, fun d hd => ?_⟩
    by_cases hdy : d = y'
    · rw [hdy]
    · exact (hnear d hd hdy).le

/-- A number that has `p` bits itself is its only nearest one. -/
theorem isNearestSignificant_self {p : Nat} {x : Rat} (hx : Significant p x) (y : Rat) :
    IsNearestSignificant p y x ↔ y = x :=
  isNearestSignificant_iff_eq hx
    (fun d _ hdx => by rw [sub_self, abs_zero]; exact abs_pos.mpr (sub_ne_zero.mpr hdx)) y

theorem significant_zero (p : Nat) : Significant p 0 := ⟨0, 0, by simp, by simp⟩

/-- A natural number of at most `p` bits times a power of two. -/
theorem significant_mul_zpow {p m : Nat} (hm : m < 2 ^ p) (e : Int) :
    Significant p ((m : Rat) * 2 ^ e) := ⟨m, e, by simpa using hm, by simp⟩

/-- A nearest number does not pass a number of as many bits. -/
theorem le_of_isNearestSignificant {p : Nat} {a d x : Rat} (ha : Significant p a) (hax : a ≤ x)
    (hd : IsNearestSignificant p d x) : a ≤ d := by
  obtain ⟨_, hmin⟩ := hd
  by_contra! hlt
  have := hmin a ha
  rw [abs_of_nonpos (by linarith), abs_of_nonpos (by linarith)] at this
  linarith

/-- A nearest number is less than a unit in the last place away: rounding down is no farther. -/
theorem isNearestSignificant_dist_lt {p : Nat} {e : Int} {d x : Rat} (hx : 0 ≤ x)
    (hxp : x < 2 ^ p * 2 ^ e) (hd : IsNearestSignificant p d x) : |d - x| < 2 ^ e := by
  obtain ⟨_, hmin⟩ := hd
  have hu : (0 : Rat) < 2 ^ e := by positivity
  have hfloor : (⌊x / 2 ^ e⌋₊ : Rat) * 2 ^ e ≤ x :=
    (le_div_iff₀ hu).mp (Nat.floor_le (by positivity))
  have hceil : x < ((⌊x / 2 ^ e⌋₊ : Rat) + 1) * 2 ^ e :=
    (div_lt_iff₀ hu).mp (Nat.lt_floor_add_one _)
  have hbits : ⌊x / 2 ^ e⌋₊ < 2 ^ p := by
    rw [Nat.floor_lt (by positivity), div_lt_iff₀ hu]
    exact_mod_cast hxp
  refine (hmin _ (significant_mul_zpow hbits e)).trans_lt ?_
  rw [abs_of_nonpos (by linarith)]
  linarith

/-- A number of 24 bits is a whole number of units `2^e`, or its own unit is at most half as large
and it lies below `2^23` units by half of one. -/
theorem significant_multiple_or_below {d : Rat} (h : Significant 24 d) (e : Int) :
    (∃ n : Int, d = n * 2 ^ e) ∨ d ≤ (2 ^ 23 - 1 / 2) * 2 ^ e := by
  obtain ⟨m, e', hm, rfl⟩ := h
  rcases le_or_gt e e' with hle | hlt
  · obtain ⟨k, rfl⟩ := Int.le.dest hle
    refine .inl ⟨m * 2 ^ k, ?_⟩
    rw [zpow_add₀ (by norm_num), zpow_natCast]
    push_cast
    ring
  · have hm' : (m : Rat) ≤ 2 ^ 24 - 1 := by exact_mod_cast show m ≤ 2 ^ 24 - 1 by omega
    refine .inr ?_
    calc (m : Rat) * 2 ^ e'
      _ ≤ (2 ^ 24 - 1) * 2 ^ (e - 1) :=
          mul_le_mul hm' (zpow_le_zpow_right₀ (by norm_num) (by omega)) (by positivity)
            (by norm_num)
      _ = (2 ^ 23 - 1 / 2) * 2 ^ e := by rw [zpow_sub_one₀ (by norm_num)]; ring

/-- A whole number of units less than half a unit from `x` is strictly nearer than any other. -/
theorem dist_lt_of_other_multiple {u x : Rat} {m n : Int} (hu : 0 < u) (hnm : n ≠ m)
    (hx : |m * u - x| < u / 2) : |m * u - x| < |n * u - x| := by
  have hone : (1 : Rat) ≤ |(n : Rat) - m| := by
    exact_mod_cast Int.one_le_abs (sub_ne_zero.mpr hnm)
  have hstep : u ≤ |n * u - m * u| := by
    rw [← sub_mul, abs_mul, abs_of_pos hu]
    exact le_mul_of_one_le_left hu.le hone
  have htri := abs_sub_le (n * u) x (m * u)
  rw [abs_sub_comm x] at htri
  linarith

/-- A significand less than half a unit from a number not below its binade is the one nearest. -/
theorem isNearestSignificant_24_iff {m : Nat} {e : Int} {x : Rat} (hm : m < 2 ^ 24)
    (hx : |m * 2 ^ e - x| < (2 : Rat) ^ e / 2) (hbinade : 2 ^ 23 * 2 ^ e ≤ x) (y : Rat) :
    IsNearestSignificant 24 y x ↔ y = m * 2 ^ e := by
  refine isNearestSignificant_iff_eq (significant_mul_zpow hm e) (fun d hd hne => ?_) y
  rcases significant_multiple_or_below hd e with ⟨n, rfl⟩ | hbelow
  · have hnm : n ≠ m := by
      rintro rfl
      exact hne (by simp)
    exact_mod_cast dist_lt_of_other_multiple (m := m) (by positivity) hnm (by exact_mod_cast hx)
  · rw [abs_sub_comm d]
    exact hx.trans_le (le_abs.mpr (.inl (by linarith)))

/-- The rounded quotient is the one nearest number of 24 bits to every number close to the exact
quotient: to one not below the binade and within the margin rounding keeps from a midpoint. -/
theorem isNearestSignificant_24_of_close {v : BitVec 20} (hv : v ≠ 0#20) {d : Rat}
    (hbinade : 2 ^ 23 * f32Ulp (div4000Exp v + 115) ≤ d)
    (hd : |d - (v.toNat : Rat) / 4000| < 16 / 4000 * f32Ulp (div4000Exp v + 115)) (y : Rat) :
    IsNearestSignificant 24 y d ↔ y = div4000Rounded v * f32Ulp (div4000Exp v + 115) := by
  have hdist := f32Div4000_dist_le hv
  have htri := abs_sub_le (div4000Rounded v * f32Ulp (div4000Exp v + 115))
    ((v.toNat : Rat) / 4000) d
  rw [abs_sub_comm] at hd
  obtain ⟨_, hhi⟩ := div4000Rounded_bounds hv
  rw [f32Ulp_eq_zpow] at *
  exact isNearestSignificant_24_iff hhi (by linarith) hbinade y

/-- A nearest number of 53 bits is not below the binade of the quotient and within the margin. -/
theorem nearest53_close {v : BitVec 20} (hv : v ≠ 0#20) {d : Rat}
    (hd : IsNearestSignificant 53 d ((v.toNat : Rat) / 4000)) :
    2 ^ 23 * f32Ulp (div4000Exp v + 115) ≤ d ∧
      |d - (v.toNat : Rat) / 4000| < 16 / 4000 * f32Ulp (div4000Exp v + 115) := by
  obtain ⟨hlo, hhi⟩ := div4000_binade hv
  have hu := f32Ulp_pos (div4000Exp v + 115)
  rw [f32Ulp_eq_zpow] at *
  generalize ((div4000Exp v + 115 : Nat) : Int) - 150 = e at *
  have hunit : (2 : Rat) ^ e = 2 ^ 29 * 2 ^ (e - 29) := by
    rw [zpow_sub₀ (by norm_num)]
    norm_num
    ring
  constructor
  · have hsig : Significant 53 (2 ^ 23 * 2 ^ e) := by
      exact_mod_cast significant_mul_zpow (p := 53) (m := 2 ^ 23) (by norm_num) e
    exact le_of_isNearestSignificant hsig hlo hd
  · have hdist := isNearestSignificant_dist_lt (e := e - 29) (by positivity) (by linarith) hd
    linarith

/-- Settles O35: the exact quotient and the number nearest to it of 53 bits are both close. -/
theorem everyDivisionPrecisionAgrees : Obligations.EveryDivisionPrecisionAgrees := by
  intro v y hy
  by_cases hv : v = 0#20
  · subst hv
    obtain rfl : 0 = y := by simpa using hy
    have hzero (p : Nat) := isNearestSignificant_self (significant_zero p)
    rw [show ((0#20).toNat : Rat) / 4000 = 0 by simp]
    refine ⟨hzero 24, fun d hd => ?_⟩
    rw [(hzero 53 d).mp hd]
    exact hzero 24
  obtain rfl := Option.some.inj ((f32Val_f32Div4000 hv).symm.trans hy)
  obtain ⟨hbinade, _⟩ := div4000_binade hv
  have hu := f32Ulp_pos (div4000Exp v + 115)
  refine ⟨isNearestSignificant_24_of_close hv hbinade ?_, fun d hd => ?_⟩
  · rw [sub_self, abs_zero]
    exact mul_pos (by norm_num) hu
  · obtain ⟨hbinade', hclose⟩ := nearest53_close hv hd
    exact isNearestSignificant_24_of_close hv hbinade' hclose

end Sys2Proof.Machine
end

section
/-! PROOF. SETMODE in every state, and a decode in the mode it leaves (44_mode.md R85). -/

namespace Sys2Proof.Machine

/-- Writing the value MODE already holds changes nothing (R85). -/
@[simp] theorem State.writeMode_held (s : State) : s.writeMode s.mode = s := rfl

theorem mode_of_exec_setmode {m : Mode} {s t : State} (h : exec (.setmode m) s = .next t) :
    t.mode = m := by
  rw [exec_setmode] at h
  cases h
  rfl

/-- The all-ones field, minus one sixteenth of a metre: the second half of R85's example. -/
theorem decpa_altimeter_allOnes :
    decpa .twosComplement .altimeter 0xFF#8 0xFF#8 0xF0#8 = 0xBD800000#32 := by decide

/-- Settles O20: SETMODE is a write of MODE and a response, so the decode after it runs in the mode
it set. -/
theorem setmodeWritesTheModeAndAnswersZero : Obligations.SetmodeWritesTheModeAndAnswersZero := by
  refine ⟨?writes, ?held, ?barWord, ?altWord, ?nextDecode⟩
  case writes => exact exec_setmode
  case held =>
    intro s
    rw [exec_setmode, State.writeMode_held]
    rfl
  case barWord => decide
  case altWord => decide
  case nextDecode =>
    intro s t h
    exact exec_decpa_of_mode (mode_of_exec_setmode h) decpa_altimeter_allOnes

end Sys2Proof.Machine
end

section
/-! PROOF. The annex encoders, by whether their fields exist (49_annex_encoders.md R91 to R97). -/

namespace Sys2Proof.Machine

theorem encodeSealevel_of_field {encRound : Rat → Int} {p : EncFloat} {raw : BitVec 16}
    {encRange : EncFloat → Option (List Byte)} (h : pressureField encRound p = some raw) :
    encodeSealevel encRound encRange p = some (bigEndian16 raw) := by
  rw [encodeSealevel, h]

theorem encodeSealevel_of_no_field {encRound : Rat → Int} {p : EncFloat}
    {encRange : EncFloat → Option (List Byte)} (h : pressureField encRound p = none) :
    encodeSealevel encRound encRange p = encRange p := by
  rw [encodeSealevel, h]

/-- A rounding that keeps 16-bit integers takes a product that is one to that raw value (R92). -/
theorem pressureField_of_integral {encRound : Rat → Int}
    (hkeeps : ∀ n : Nat, n ≤ 65535 → encRound n = n) {x : Rat} {raw : BitVec 16}
    (hx : x * 500 = raw.toNat) : pressureField encRound (.finite x) = some raw := by
  have hlt := raw.isLt
  apply pressureField_of_raw
  rw [hx, hkeeps _ (by omega)]

theorem pressureField_of_outside {encRound : Rat → Int} {x : Rat}
    (h : encRound (x * 500) < 0 ∨ 65535 < encRound (x * 500)) :
    pressureField encRound (.finite x) = none :=
  (pressureField_eq_none_iff encRound _).mpr (.inr ⟨x, rfl, h⟩)

@[simp] theorem pressureField_notFinite (encRound : Rat → Int) :
    pressureField encRound .notFinite = none := rfl

/-- Settles O42: the pressure has a field, whose two bytes are sent, or the range policy answers. -/
theorem sealevelBytes : Obligations.SealevelBytes := by
  intro encRound encRange
  refine ⟨?fits, fun hkeeps => ⟨?integral, ?workedExample⟩, ?outside, ?notFinite⟩
  case fits => exact fun x raw h => encodeSealevel_of_field (pressureField_of_raw h)
  case integral =>
    exact fun x raw h => encodeSealevel_of_field (pressureField_of_integral hkeeps h)
  case workedExample =>
    have hraw : (101326 / 1000 : Rat) * 500 = (0xC5E7#16).toNat := by norm_num
    exact encodeSealevel_of_field (pressureField_of_integral hkeeps hraw)
  case outside => exact fun x h => encodeSealevel_of_no_field (pressureField_of_outside h)
  case notFinite => exact encodeSealevel_of_no_field (pressureField_notFinite encRound)

section
variable {encRound : Rat → Int} {encIntConv : Rat → Option (BitVec 16)}
  {encRange : EncFloat → Byte → EncFloat → Byte → Mode → Option (List Byte)}
  {target window : EncFloat} {tt tw : Byte} {mode : Mode}

theorem encodeThreshold_of_fields {t w : BitVec 16}
    (ht : thresholdField encRound encIntConv mode target = some t)
    (hw : thresholdField encRound encIntConv mode window = some w) :
    encodeThreshold encRound encIntConv encRange target tt window tw mode =
      some [t.extractLsb' 8 8, t.extractLsb' 0 8, tt, w.extractLsb' 8 8, w.extractLsb' 0 8, tw] := by
  rw [encodeThreshold, ht, hw]
  rfl

theorem encodeThreshold_of_missing_field
    (h : thresholdField encRound encIntConv mode target = none ∨
      thresholdField encRound encIntConv mode window = none) :
    encodeThreshold encRound encIntConv encRange target tt window tw mode =
      encRange target tt window tw mode := by
  rw [encodeThreshold]
  rcases h with h | h
  · rw [h]
  · rw [h]
    cases thresholdField encRound encIntConv mode target <;> rfl

end

/-- Settles O43: both fields exist and the six bytes are sent, or one is missing and the range
policy answers. -/
theorem thresholdBytes : Obligations.ThresholdBytes := by
  intro encRound encIntConv encRange tt tw
  refine ⟨?barometer, ?altimeter, fun hkeeps => ?barometerExample, fun hconv => ?altimeterExample,
    ?barometerOutside, ?altimeterOutside, ?notFinite⟩
  case barometer =>
    intro x w rx rw hx hw
    exact encodeThreshold_of_fields (pressureField_of_raw hx) (pressureField_of_raw hw)
  case altimeter =>
    intro x w rx rw hx hw
    exact encodeThreshold_of_fields hx hw
  case barometerExample =>
    have htarget : thresholdField encRound encIntConv .barometer (.finite 100) = some 0xC350#16 :=
      pressureField_of_integral hkeeps (by norm_num)
    have hwindow : thresholdField encRound encIntConv .barometer (.finite (1 / 2)) =
        some 0x00FA#16 := pressureField_of_integral hkeeps (by norm_num)
    exact encodeThreshold_of_fields htarget hwindow
  case altimeterExample =>
    have htarget : thresholdField encRound encIntConv .altimeter (.finite 1000) = some 0x03E8#16 :=
      hconv 1000 (by norm_num)
    have hwindow : thresholdField encRound encIntConv .altimeter (.finite 10) = some 0x000A#16 :=
      hconv 10 (by norm_num)
    exact encodeThreshold_of_fields htarget hwindow
  case barometerOutside =>
    intro x w h
    apply encodeThreshold_of_missing_field
    rw [← or_assoc] at h
    exact h.imp pressureField_of_outside pressureField_of_outside
  case altimeterOutside => exact fun x w h => encodeThreshold_of_missing_field h
  case notFinite =>
    intro p mode
    have hnone := thresholdField_notFinite encRound encIntConv mode
    exact ⟨encodeThreshold_of_missing_field (.inl hnone),
      encodeThreshold_of_missing_field (.inr hnone)⟩

end Sys2Proof.Machine
end

section
/-! PROOF. The step as exec of the presented command and as the spec's step function, and the one
response of every instruction (60_exceptions.md R100, R113). -/

namespace Sys2Proof.Machine
open Sys2Proof.Safety

/-- Settles O5: a presented word that decodes is executed, and the word `withFetchWord` presents
decodes to its instruction. -/
theorem stepRunsTheDecodedCommand : Obligations.StepRunsTheDecodedCommand :=
  ⟨fun _ _ _ _ hr hi hd => step_command hi hr hd, fun s i => step_withFetchWord_encode i s⟩

/-- Settles O6: the machine's step and the spec's step function have the same two outcomes on a
presented word. -/
theorem stepIsTheSpecStepFunction : Obligations.StepIsTheSpecStepFunction := by
  intro s cmd rest hr hi
  rcases step_command_cases hr hi with ⟨m, rsp, hspec, hstep⟩ | ⟨hspec, hstep⟩
  · rw [hspec, hstep]
    rfl
  · rw [hspec, hstep]

/-- Settles O10: the response is the pure decoder's word, or SETMODE's zero. -/
theorem everyInstructionAnswersOnce : Obligations.EveryInstructionAnswersOnce := by
  intro i s
  cases i with
  | decpa b0 b1 b2 => exact ⟨_, exec_decpa b0 b1 b2 s⟩
  | dect b0 b1 => exact ⟨_, exec_dect b0 b1 s⟩
  | setmode m => exact ⟨_, exec_setmode m s⟩

end Sys2Proof.Machine
end

section
/-! PROOF. Which steps are refused, that a refusal is kept, and that a host issuing no reserved word
meets none (60_exceptions.md R104, R114). -/

namespace Sys2Proof.Machine
open Sys2Proof.Safety

/-- The field checks of R53 to R55 fail exactly on the words the decoder's masks reject. -/
theorem commandWellFormed_eq_false_iff (w : Word) :
    commandWellFormed w = false ↔ ∃ e, decode w = .error e := by
  rw [decode_error_iff_fields]
  -- Both sides are conditions on the same four slices, so this is arithmetic of the operation code.
  simp only [commandWellFormed, opDefined, decpaZeros, dectZeros, setmodeZeros, opField,
    Bool.and_eq_false_iff, Bool.or_eq_false_iff, beq_eq_false_iff_ne, bne_eq_false_iff_eq, ne_eq,
    ← BitVec.toNat_inj, BitVec.toNat_ofNat]
  omega

theorem exec_ne_refused (i : Instr) (s : State) (r : Refusal) : exec i s ≠ .refused r := by
  obtain ⟨rsp, hexec⟩ := everyInstructionAnswersOnce i s
  rw [hexec]
  nofun

/-- A command presented under asserted `rst` is not accepted, whatever its word (R122). -/
theorem step_under_reset {s : State} {cmd : Word} {rest : List HostInput}
    (h : s.inputs = .command cmd :: rest) (hr : s.rst = true) :
    step s = .next { s with inputs := rest } := by
  rw [step, fetch_under_reset h hr]

/-- The only refused step is the one that takes a word that does not decode, with `rst` released. -/
theorem step_refused_cases {s : State} {r : Refusal} (h : step s = .refused r) :
    s.rst = false ∧ r = .reservedCommand ∧
      ∃ cmd rest, s.inputs = .command cmd :: rest ∧ ∃ e, decode cmd = .error e := by
  rcases hi : s.inputs with _ | ⟨⟨cmd⟩ | ⟨b⟩, rest⟩
  · rw [step_nil hi] at h
    cases h
  · rcases Bool.eq_false_or_eq_true s.rst with hr | hr
    · rw [step_under_reset hi hr] at h
      cases h
    · cases hd : decode cmd with
      | ok i =>
        rw [step_command hi hr hd] at h
        exact absurd h (exec_ne_refused i _ r)
      | error e =>
        rw [step_reserved hi hr hd] at h
        cases h
        exact ⟨hr, rfl, cmd, rest, rfl, e, hd⟩
  · rw [step_rst hi] at h
    cases h

/-- A refused run stays refused, however many steps follow. -/
theorem run_add_of_refused {k : Nat} {s : State} {r : Refusal} (h : run k s = .refused r)
    (j : Nat) : run (k + j) s = .refused r := by
  induction k generalizing s with
  | zero => cases h
  | succ k ih =>
    rw [Nat.succ_add]
    cases hstep : step s with
    | next t =>
      rw [run_succ_of_next hstep] at h ⊢
      exact ih h
    | fault f => cases f
    | refused r' =>
      rw [run_succ_of_refused hstep] at h ⊢
      exact h

/-- Settles O8: refused steps by the head of the inputs, the decoder's rejection said by the field
checks, and an induction on the steps before the refusal. -/
theorem onlyReservedCommandsAreRefusedForGood :
    Obligations.OnlyReservedCommandsAreRefusedForGood := by
  refine ⟨fun s r => ?_, fun _ _ _ j h => run_add_of_refused h j⟩
  simp only [commandWellFormed_eq_false_iff]
  constructor
  · exact step_refused_cases
  · rintro ⟨hr, rfl, cmd, rest, hi, e, hd⟩
    exact step_reserved hi hr hd

@[simp] theorem legalInputs_command (cmd : Word) (rest : List HostInput) :
    legalInputs (.command cmd :: rest) = true ↔
      commandWellFormed cmd = true ∧ legalInputs rest = true :=
  Bool.and_eq_true_iff

theorem legalInputs_tail {l : List HostInput} (h : legalInputs l = true) :
    legalInputs l.tail = true := by
  rcases l with _ | ⟨⟨cmd⟩ | ⟨b⟩, rest⟩
  · exact h
  · exact ((legalInputs_command cmd rest).mp h).2
  · exact h

/-- A step that answers a next state took the head of the inputs and no more. -/
theorem step_inputs {s t : State} (h : step s = .next t) : t.inputs = s.inputs.tail := by
  rcases step_next_cases h with ⟨hi, rfl⟩ | ⟨b, rest, hi, rfl⟩ | ⟨cmd, rest, hi, _, rfl⟩ |
    ⟨cmd, rest, i, hi, _, _, hexec⟩
  · rw [hi, List.tail_nil]
  · rw [hi, State.driveRst_inputs, List.tail_cons]
  · rw [hi, List.tail_cons]
  · obtain ⟨-, hinputs, -⟩ := instructionFrames i _ t hexec
    rw [hinputs, hi, List.tail_cons]

/-- A step of a host that issues no reserved word answers a next state, and legal inputs remain. -/
theorem step_keeps_legalInputs {s : State} (h : legalInputs s.inputs = true) :
    ∃ t, step s = .next t ∧ legalInputs t.inputs = true := by
  cases hstep : step s with
  | next t => exact ⟨t, rfl, step_inputs hstep ▸ legalInputs_tail h⟩
  | fault f => cases f
  | refused r =>
    obtain ⟨-, -, cmd, rest, hi, hd⟩ := step_refused_cases hstep
    rw [hi, legalInputs_command] at h
    exact absurd h.1 (by simp [(commandWellFormed_eq_false_iff cmd).mpr hd])

/-- Settles O9, by induction on the steps. -/
theorem legalHostIsNeverRefused : Obligations.LegalHostIsNeverRefused := by
  intro k
  induction k with
  | zero => exact fun s h => ⟨s, run_zero s, h⟩
  | succ k ih =>
    intro s h
    obtain ⟨t, hstep, ht⟩ := step_keeps_legalInputs h
    rw [run_succ_of_next hstep]
    exact ih t ht

end Sys2Proof.Machine
end

section
/-! PROOF. Commands under asserted reset, and the boot rule as noninterference: a relation between
two states, kept by every step, under which a host that keeps the rule is shown the same
(70_reset_and_hazards.md R122, R123). -/

namespace Sys2Proof.Machine
open Sys2Proof.Safety

/-- Settles O40: fetching drops the command before it is decoded. -/
theorem commandsUnderResetAreNotAccepted : Obligations.CommandsUnderResetAreNotAccepted :=
  fun _ _ _ hr hi => step_under_reset hi hr

/-- The two states agree on all but the draws of the reset mode, and on MODE too once the host has
set it since the last reset (`known`). -/
structure AgreeUpToReset (known : Bool) (s s' : State) : Prop where
  inputs : s.inputs = s'.inputs
  rst : s.rst = s'.rst
  responses : s.responses = s'.responses
  mode : known = true → s.mode = s'.mode

section
variable {known : Bool} {s s' : State}

theorem AgreeUpToReset.withInputs (h : AgreeUpToReset known s s') (rest : List HostInput) :
    AgreeUpToReset known { s with inputs := rest } { s' with inputs := rest } :=
  ⟨rfl, h.rst, h.responses, h.mode⟩

theorem AgreeUpToReset.respond (h : AgreeUpToReset known s s') (w : Word) :
    AgreeUpToReset known (s.respond w) (s'.respond w) :=
  ⟨h.inputs, h.rst, by simp [h.responses], h.mode⟩

/-- A write of MODE makes it known. -/
theorem AgreeUpToReset.writeMode (h : AgreeUpToReset known s s') (m : Mode) :
    AgreeUpToReset true (s.writeMode m) (s'.writeMode m) :=
  ⟨h.inputs, h.rst, h.responses, fun _ => rfl⟩

/-- Asserting `rst` makes MODE unknown; releasing it leaves what was known. -/
theorem AgreeUpToReset.driveRst (h : AgreeUpToReset known s s') (level : Bool) :
    AgreeUpToReset (known && !level) (s.driveRst level) (s'.driveRst level) := by
  refine ⟨by simp [h.inputs], by simp, by simp [h.responses], fun hk => ?_⟩
  cases level with
  | true => simp at hk
  | false => exact h.mode (by simpa using hk)

end

section
variable {known : Bool} {cmd : Word} {rest : List HostInput}

theorem bootRule_under_reset :
    bootRule known true (.command cmd :: rest) = bootRule known true rest := by
  simp [bootRule]

theorem bootRule_decpa {b0 b1 b2 : Byte} (hd : decode cmd = .ok (.decpa b0 b1 b2)) :
    bootRule known false (.command cmd :: rest) = (known && bootRule known false rest) := by
  simp [bootRule, hd]

theorem bootRule_dect {b0 b1 : Byte} (hd : decode cmd = .ok (.dect b0 b1)) :
    bootRule known false (.command cmd :: rest) = bootRule known false rest := by
  simp [bootRule, hd]

theorem bootRule_setmode {m : Mode} (hd : decode cmd = .ok (.setmode m)) :
    bootRule known false (.command cmd :: rest) = bootRule true false rest := by
  simp [bootRule, hd]

end

/-- An accepted command the boot rule allows has the same response in both states: DECPA, the one
instruction that reads MODE, is allowed only where MODE is known. -/
theorem exec_keeps_agreeUpToReset {known : Bool} {s s' : State} {cmd : Word} {i : Instr}
    (h : AgreeUpToReset known s s') (hd : decode cmd = .ok i) (hr : s.rst = false)
    (hboot : bootRule known false (.command cmd :: s.inputs) = true) :
    ∃ known' t t', exec i s = .next t ∧ exec i s' = .next t' ∧
      AgreeUpToReset known' t t' ∧ bootRule known' t.rst t.inputs = true := by
  cases i with
  | decpa b0 b1 b2 =>
    rw [bootRule_decpa hd, Bool.and_eq_true] at hboot
    obtain ⟨hknown, hrest⟩ := hboot
    refine ⟨known, _, _, exec_decpa .., exec_decpa .., ?_, by simpa [hr] using hrest⟩
    rw [h.mode hknown]
    exact h.respond _
  | dect b0 b1 =>
    rw [bootRule_dect hd] at hboot
    exact ⟨known, _, _, exec_dect .., exec_dect .., h.respond _, by simpa [hr] using hboot⟩
  | setmode m =>
    rw [bootRule_setmode hd] at hboot
    exact ⟨true, _, _, exec_setmode .., exec_setmode .., (h.writeMode m).respond _,
      by simpa [hr] using hboot⟩

/-- One step of two states that agree, under the boot rule: both are refused, or both answer next
states that agree and the rule still holds. -/
theorem step_keeps_agreeUpToReset {known : Bool} {s s' : State} (h : AgreeUpToReset known s s')
    (hboot : bootRule known s.rst s.inputs = true) :
    (∃ r, step s = .refused r ∧ step s' = .refused r) ∨
    ∃ known' t t', step s = .next t ∧ step s' = .next t' ∧
      AgreeUpToReset known' t t' ∧ bootRule known' t.rst t.inputs = true := by
  rcases hi : s.inputs with _ | ⟨⟨cmd⟩ | ⟨level⟩, rest⟩
  · exact .inr ⟨known, s, s', step_nil hi, step_nil (h.inputs ▸ hi), h, hboot⟩
  · have hi' : s'.inputs = .command cmd :: rest := h.inputs ▸ hi
    rw [hi] at hboot
    rcases Bool.eq_false_or_eq_true s.rst with hr | hr
    · rw [hr, bootRule_under_reset] at hboot
      exact .inr ⟨known, _, _, step_under_reset hi hr, step_under_reset hi' (h.rst ▸ hr),
        h.withInputs rest, by simpa [hr] using hboot⟩
    · have hr' : s'.rst = false := h.rst ▸ hr
      rw [hr] at hboot
      cases hd : decode cmd with
      | ok i =>
        rw [step_command hi hr hd, step_command hi' hr' hd]
        exact .inr (exec_keeps_agreeUpToReset (h.withInputs rest) hd hr hboot)
      | error e => exact .inl ⟨_, step_reserved hi hr hd, step_reserved hi' hr' hd⟩
  · rw [hi, bootRule] at hboot
    exact .inr ⟨known && !level, _, _, step_rst hi, step_rst (h.inputs ▸ hi),
      (h.withInputs rest).driveRst level, by simpa using hboot⟩

/-- Runs of states that agree show the host the same, if it keeps the boot rule from here on. -/
theorem shown_run_eq_of_agreeUpToReset {known : Bool} {s s' : State}
    (h : AgreeUpToReset known s s') (hboot : bootRule known s.rst s.inputs = true) (k : Nat) :
    shown (run k s) = shown (run k s') := by
  induction k generalizing known s s' with
  | zero => exact congrArg some h.responses
  | succ k ih =>
    rcases step_keeps_agreeUpToReset h hboot with ⟨r, hs, hs'⟩ | ⟨known', t, t', hs, hs', ht, hbt⟩
    · rw [run_succ_of_refused hs, run_succ_of_refused hs']
    · rw [run_succ_of_next hs, run_succ_of_next hs']
      exact ih ht hbt

/-- Settles O41: at the start MODE is not known, so the two states need not agree on it. -/
theorem bootRuleHidesTheResetMode : Obligations.BootRuleHidesTheResetMode :=
  fun k _ _ hi hr hresp hboot =>
    shown_run_eq_of_agreeUpToReset (known := false) ⟨hi, hr, hresp, nofun⟩ hboot k

end Sys2Proof.Machine
end

section
/-! PROOF. The invariant of the responses at reset (70_reset_and_hazards.md section 1). -/

namespace Sys2Proof.Machine
open Sys2Proof.Safety

/-- Log entry 3: no response stands after reset, whichever mode it leaves. -/
@[simp] theorem resetTo_responses (m : Mode) : (State.resetTo m).responses = [] := rfl

theorem responsesPlain_of_no_responses {s : State} (h : s.responses = []) : ResponsesPlain s := by
  rw [ResponsesPlain, h]
  exact List.forall_mem_nil _

/-- Settles O38: `State.reset` is `State.resetTo` of one of the modes, and no response stands
after either. -/
theorem resetHasResponsesPlain : Obligations.ResetHasResponsesPlain := by
  have hmode (m : Mode) : ResponsesPlain (State.resetTo m) :=
    responsesPlain_of_no_responses (resetTo_responses m)
  exact ⟨hmode (Config.modeReset 0), hmode⟩

end Sys2Proof.Machine
end
